-- ==== Sys2Proof/Word.lean ====
section
/-! DEFINITION. The value types of the machine: bytes, 16-bit words, 12-bit address literals, register
numbers and the display bitmap (00_scope.md R4, R6; 10_state.md R20). -/

namespace Sys2Proof

/-- An 8-bit value: a general register, a timer, a byte of memory (R4, R21, R26, R40). -/
abbrev Byte := BitVec 8

/-- A 16-bit value: an opcode, the index register, the program counter, a return address (R4, R60). -/
abbrev Word := BitVec 16

/-- The 12-bit address literal `nnn` of an opcode (R61, R63). -/
abbrev Addr12 := BitVec 12

/-- A register number `0 .. 15` (R21, R63). -/
abbrev Reg := Fin 16

/-- A key number `0 .. 15` (R28). -/
abbrev Key := Fin 16

/-- A display row number `r`, the y coordinate (R27). -/
abbrev Row := Fin 32

/-- A display column number `c`, the x coordinate (R27). -/
abbrev Col := Fin 64

/-- The 64 x 32 one-bit display, row-major: `disp[r][c]`, `true` is a set pixel (R27). -/
abbrev Bitmap := Vector (Vector Bool 64) 32

/-- `VF`, the flag register: the name of `V[15]` (R22). -/
abbrev VF : Reg := 15

end Sys2Proof
end

