-- ==== Sys2Proof/Syntax.lean ====
section
/-! DEFINITION. The instruction set: one constructor for each of the 35 rows of the closed dispatch
table (30_encoding.md R64), in the table's order. Each docstring names the word pattern, which is the
instruction's normative name, and the rule that gives its meaning. -/

namespace Sys2Proof

/-- The 35 instructions (R64). Register selectors `x`, `y` are register numbers, `nn` is a byte, `nnn`
a 12-bit literal, and `n` a count of sprite rows (R61, R63); that the count fits its 4-bit field is
`WellFormed`'s one check. -/
inductive Instr where
  /-- `0000`, R82. -/
  | nop
  /-- `00E0`, R130. -/
  | cls
  /-- `00EE`, R83. -/
  | ret
  /-- `1nnn`, R84. -/
  | jp (nnn : Addr12)
  /-- `2nnn`, R85. -/
  | call (nnn : Addr12)
  /-- `3xnn`, R86. -/
  | seImm (x : Reg) (nn : Byte)
  /-- `4xnn`, R87. -/
  | sneImm (x : Reg) (nn : Byte)
  /-- `5xy0`, R88. -/
  | seReg (x y : Reg)
  /-- `6xnn`, R100. -/
  | ldImm (x : Reg) (nn : Byte)
  /-- `7xnn`, R101. -/
  | addImm (x : Reg) (nn : Byte)
  /-- `8xy0`, R102. -/
  | ldReg (x y : Reg)
  /-- `8xy1`, R103. -/
  | orReg (x y : Reg)
  /-- `8xy2`, R104. -/
  | andReg (x y : Reg)
  /-- `8xy3`, R105. -/
  | xorReg (x y : Reg)
  /-- `8xy4`, R106. -/
  | addReg (x y : Reg)
  /-- `8xy5`, R107. -/
  | subReg (x y : Reg)
  /-- `8xy6`, R108; the field `y` is decoded and ignored (R66). -/
  | shr (x y : Reg)
  /-- `8xy7`, R109. -/
  | subnReg (x y : Reg)
  /-- `8xyE`, R110; the field `y` is decoded and ignored (R66). -/
  | shl (x y : Reg)
  /-- `9xy0`, R89. -/
  | sneReg (x y : Reg)
  /-- `Annn`, R120. -/
  | ldIndex (nnn : Addr12)
  /-- `Bnnn`, R90. -/
  | jpV0 (nnn : Addr12)
  /-- `Cxnn`, R140. -/
  | rnd (x : Reg) (nn : Byte)
  /-- `Dxyn`, R131. -/
  | drw (x y : Reg) (n : Nat)
  /-- `Ex9E`, R141. -/
  | skp (x : Reg)
  /-- `ExA1`, R142. -/
  | sknp (x : Reg)
  /-- `Fx07`, R143. -/
  | ldFromDt (x : Reg)
  /-- `Fx0A`, R144. -/
  | ldKey (x : Reg)
  /-- `Fx15`, R145. -/
  | ldDt (x : Reg)
  /-- `Fx18`, R146. -/
  | ldSt (x : Reg)
  /-- `Fx1E`, R121. -/
  | addIndex (x : Reg)
  /-- `Fx29`, R122. -/
  | ldFont (x : Reg)
  /-- `Fx33`, R123. -/
  | ldBcd (x : Reg)
  /-- `Fx55`, R124. -/
  | storeRegs (x : Reg)
  /-- `Fx65`, R125. -/
  | loadRegs (x : Reg)
  deriving DecidableEq, Repr

end Sys2Proof
end

