-- ==== Sys2Proof/WellFormed.lean ====
section
/-! DEFINITION. Which instructions a 16-bit word can spell. Register numbers, bytes and address
literals carry their width in their types, so the one thing left to check is the sprite row count of
`Dxyn`, a 4-bit field (30_encoding.md R61: `n = op[3:0]`, 0 to 15). -/

namespace Sys2Proof

/-- The instruction's operands fit the fields of its encoding (R61, R63). -/
def Instr.wellFormed : Instr → Bool
  | .drw _ _ n => n ≤ 15
  | .nop | .cls | .ret => true
  | .jp _ | .call _ | .ldIndex _ | .jpV0 _ => true
  | .seImm _ _ | .sneImm _ _ | .ldImm _ _ | .addImm _ _ | .rnd _ _ => true
  | .seReg _ _ | .sneReg _ _ | .ldReg _ _ | .orReg _ _ | .andReg _ _ | .xorReg _ _ => true
  | .addReg _ _ | .subReg _ _ | .shr _ _ | .subnReg _ _ | .shl _ _ => true
  | .skp _ | .sknp _ | .ldFromDt _ | .ldKey _ | .ldDt _ | .ldSt _ => true
  | .addIndex _ | .ldFont _ | .ldBcd _ | .storeRegs _ | .loadRegs _ => true

end Sys2Proof
end

