-- ==== Sys2Proof/Decode.lean ====
section
/-! DEFINITION. Decoding (30_encoding.md R60 to R67): a total function from words, and from bytes in
memory order, to an instruction or a named rejection; then the encoder, written from the same table. -/

namespace Sys2Proof

/-! ### Fields (R61) -/

/-- `nibble1 = op[15:12]`, the major opcode. -/
def nibble1 (op : Word) : BitVec 4 := op.extractLsb' 12 4

/-- `nibble2 = op[11:8]`, the register selector `x`. -/
def nibble2 (op : Word) : BitVec 4 := op.extractLsb' 8 4

/-- `nibble3 = op[7:4]`, the register selector `y`. -/
def nibble3 (op : Word) : BitVec 4 := op.extractLsb' 4 4

/-- `nibble4 = op[3:0]`, the count `n` or a minor opcode. -/
def nibble4 (op : Word) : BitVec 4 := op.extractLsb' 0 4

/-- `nn = op[7:0]`, the immediate byte. -/
def immediate (op : Word) : Byte := op.extractLsb' 0 8

/-- `nnn = op[11:0]`, the address literal. -/
def literal (op : Word) : Addr12 := op.extractLsb' 0 12

/-- A nibble read as a register number (R63). -/
def regOf (v : BitVec 4) : Reg := v.toFin

/-! ### Decoding -/

/-- The instruction a word is, or `none` for the 21581 illegal words (R64, R65). The dispatch key is the
4-nibble tuple, row by row as R64 prints it. -/
def decodeWord (op : Word) : Option Instr :=
  match nibble1 op, nibble2 op, nibble3 op, nibble4 op with
  | 0x0#4, 0x0#4, 0x0#4, 0x0#4 => some .nop
  | 0x0#4, 0x0#4, 0xE#4, 0x0#4 => some .cls
  | 0x0#4, 0x0#4, 0xE#4, 0xE#4 => some .ret
  | 0x1#4, _, _, _ => some (.jp (literal op))
  | 0x2#4, _, _, _ => some (.call (literal op))
  | 0x3#4, x, _, _ => some (.seImm (regOf x) (immediate op))
  | 0x4#4, x, _, _ => some (.sneImm (regOf x) (immediate op))
  | 0x5#4, x, y, 0x0#4 => some (.seReg (regOf x) (regOf y))
  | 0x6#4, x, _, _ => some (.ldImm (regOf x) (immediate op))
  | 0x7#4, x, _, _ => some (.addImm (regOf x) (immediate op))
  | 0x8#4, x, y, 0x0#4 => some (.ldReg (regOf x) (regOf y))
  | 0x8#4, x, y, 0x1#4 => some (.orReg (regOf x) (regOf y))
  | 0x8#4, x, y, 0x2#4 => some (.andReg (regOf x) (regOf y))
  | 0x8#4, x, y, 0x3#4 => some (.xorReg (regOf x) (regOf y))
  | 0x8#4, x, y, 0x4#4 => some (.addReg (regOf x) (regOf y))
  | 0x8#4, x, y, 0x5#4 => some (.subReg (regOf x) (regOf y))
  | 0x8#4, x, y, 0x6#4 => some (.shr (regOf x) (regOf y))
  | 0x8#4, x, y, 0x7#4 => some (.subnReg (regOf x) (regOf y))
  | 0x8#4, x, y, 0xE#4 => some (.shl (regOf x) (regOf y))
  | 0x9#4, x, y, 0x0#4 => some (.sneReg (regOf x) (regOf y))
  | 0xA#4, _, _, _ => some (.ldIndex (literal op))
  | 0xB#4, _, _, _ => some (.jpV0 (literal op))
  | 0xC#4, x, _, _ => some (.rnd (regOf x) (immediate op))
  | 0xD#4, x, y, n => some (.drw (regOf x) (regOf y) n.toNat)
  | 0xE#4, x, 0x9#4, 0xE#4 => some (.skp (regOf x))
  | 0xE#4, x, 0xA#4, 0x1#4 => some (.sknp (regOf x))
  | 0xF#4, x, 0x0#4, 0x7#4 => some (.ldFromDt (regOf x))
  | 0xF#4, x, 0x0#4, 0xA#4 => some (.ldKey (regOf x))
  | 0xF#4, x, 0x1#4, 0x5#4 => some (.ldDt (regOf x))
  | 0xF#4, x, 0x1#4, 0x8#4 => some (.ldSt (regOf x))
  | 0xF#4, x, 0x1#4, 0xE#4 => some (.addIndex (regOf x))
  | 0xF#4, x, 0x2#4, 0x9#4 => some (.ldFont (regOf x))
  | 0xF#4, x, 0x3#4, 0x3#4 => some (.ldBcd (regOf x))
  | 0xF#4, x, 0x5#4, 0x5#4 => some (.storeRegs (regOf x))
  | 0xF#4, x, 0x6#4, 0x5#4 => some (.loadRegs (regOf x))
  | _, _, _, _ => none

/-- Big-endian assembly: the byte at the lower address is `op[15:8]` (20_memory.md R43, R81). -/
def assemble (high low : Byte) : Word := BitVec.ofNat 16 (high.toNat * 256 + low.toNat)

/-- Why bytes are no instruction. -/
inductive Reject where
  /-- Fewer than the two bytes every instruction has (R60). The machine never meets it: fetch reads two
  bytes or faults. -/
  | tooShort
  /-- The word matches no row of R64: R65's unimplemented opcode, with the word. -/
  | unimplementedOpcode (op : Word)
  deriving DecidableEq, Repr

/-- Decoding of bytes in memory order: the first instruction and the bytes after it, or why there is
none (R43, R60, R65). -/
def decode : List Byte → Except Reject (Instr × List Byte)
  | high :: low :: rest =>
    match decodeWord (assemble high low) with
    | some i => .ok (i, rest)
    | none => .error (.unimplementedOpcode (assemble high low))
  | _ => .error .tooShort

/-! ### Encoding -/

/-- A word from its four nibbles, nibble1 the most significant (R61). -/
def wordOfNibbles (n1 n2 n3 n4 : BitVec 4) : Word := n1 ++ n2 ++ n3 ++ n4

/-- A register number as the nibble that selects it (R61, R63). -/
def nibbleOf (x : Reg) : BitVec 4 := BitVec.ofNat 4 x.val

/-- Format `A` (R62): major opcode, `nnn`. -/
def formatA (major : BitVec 4) (nnn : Addr12) : Word := major ++ nnn

/-- Format `XI` (R62): major opcode, `x`, `nn`. -/
def formatXI (major : BitVec 4) (x : Reg) (nn : Byte) : Word := major ++ nibbleOf x ++ nn

/-- Format `XY` (R62), and `XYN` with the count as the last nibble: major opcode, `x`, `y`, minor. -/
def formatXY (major : BitVec 4) (x y : Reg) (minor : BitVec 4) : Word :=
  wordOfNibbles major (nibbleOf x) (nibbleOf y) minor

/-- Format `X` (R62): major opcode, `x`, minor byte. -/
def formatX (major : BitVec 4) (x : Reg) (minor : Byte) : Word :=
  major ++ nibbleOf x ++ minor

/-- The word of an instruction (R62, R64). On an instruction that is not well formed the row count is
cut to its field. -/
def encode : Instr → Word
  | .nop => 0x0000
  | .cls => 0x00E0
  | .ret => 0x00EE
  | .jp nnn => formatA 0x1 nnn
  | .call nnn => formatA 0x2 nnn
  | .seImm x nn => formatXI 0x3 x nn
  | .sneImm x nn => formatXI 0x4 x nn
  | .seReg x y => formatXY 0x5 x y 0x0
  | .ldImm x nn => formatXI 0x6 x nn
  | .addImm x nn => formatXI 0x7 x nn
  | .ldReg x y => formatXY 0x8 x y 0x0
  | .orReg x y => formatXY 0x8 x y 0x1
  | .andReg x y => formatXY 0x8 x y 0x2
  | .xorReg x y => formatXY 0x8 x y 0x3
  | .addReg x y => formatXY 0x8 x y 0x4
  | .subReg x y => formatXY 0x8 x y 0x5
  | .shr x y => formatXY 0x8 x y 0x6
  | .subnReg x y => formatXY 0x8 x y 0x7
  | .shl x y => formatXY 0x8 x y 0xE
  | .sneReg x y => formatXY 0x9 x y 0x0
  | .ldIndex nnn => formatA 0xA nnn
  | .jpV0 nnn => formatA 0xB nnn
  | .rnd x nn => formatXI 0xC x nn
  | .drw x y n => formatXY 0xD x y (BitVec.ofNat 4 n)
  | .skp x => formatX 0xE x 0x9E
  | .sknp x => formatX 0xE x 0xA1
  | .ldFromDt x => formatX 0xF x 0x07
  | .ldKey x => formatX 0xF x 0x0A
  | .ldDt x => formatX 0xF x 0x15
  | .ldSt x => formatX 0xF x 0x18
  | .addIndex x => formatX 0xF x 0x1E
  | .ldFont x => formatX 0xF x 0x29
  | .ldBcd x => formatX 0xF x 0x33
  | .storeRegs x => formatX 0xF x 0x55
  | .loadRegs x => formatX 0xF x 0x65

/-- The byte at the lower address of a stored word: `op[15:8]` (R43). -/
def highByte (op : Word) : Byte := op.extractLsb' 8 8

/-- The byte at the higher address of a stored word: `op[7:0]` (R43). -/
def lowByte (op : Word) : Byte := op.extractLsb' 0 8

/-- The two bytes of a word in memory order, high byte first (R43, R68). -/
def bytesOfWord (op : Word) : List Byte := [highByte op, lowByte op]

/-- The two bytes of an instruction in memory order. -/
def encodeBytes (i : Instr) : List Byte := bytesOfWord (encode i)

/-! ### The mask and match columns of R64, for the laws of the decoder -/

/-- The row of R64 that an instruction belongs to, 1 to 35 (the table's column `#`). -/
def Instr.row : Instr → Nat
  | .nop => 1
  | .cls => 2
  | .ret => 3
  | .jp _ => 4
  | .call _ => 5
  | .seImm _ _ => 6
  | .sneImm _ _ => 7
  | .seReg _ _ => 8
  | .ldImm _ _ => 9
  | .addImm _ _ => 10
  | .ldReg _ _ => 11
  | .orReg _ _ => 12
  | .andReg _ _ => 13
  | .xorReg _ _ => 14
  | .addReg _ _ => 15
  | .subReg _ _ => 16
  | .shr _ _ => 17
  | .subnReg _ _ => 18
  | .shl _ _ => 19
  | .sneReg _ _ => 20
  | .ldIndex _ => 21
  | .jpV0 _ => 22
  | .rnd _ _ => 23
  | .drw _ _ _ => 24
  | .skp _ => 25
  | .sknp _ => 26
  | .ldFromDt _ => 27
  | .ldKey _ => 28
  | .ldDt _ => 29
  | .ldSt _ => 30
  | .addIndex _ => 31
  | .ldFont _ => 32
  | .ldBcd _ => 33
  | .storeRegs _ => 34
  | .loadRegs _ => 35

/-- The columns `mask` and `match` of R64, row by row: a word is the row's instruction if and only if
`op & mask = match`. The decoder above is written from the column of nibble patterns, not from this one. -/
def maskMatch : List (Word × Word) :=
  [(0xFFFF, 0x0000), (0xFFFF, 0x00E0), (0xFFFF, 0x00EE), (0xF000, 0x1000), (0xF000, 0x2000)] ++
  [(0xF000, 0x3000), (0xF000, 0x4000), (0xF00F, 0x5000), (0xF000, 0x6000), (0xF000, 0x7000)] ++
  [(0xF00F, 0x8000), (0xF00F, 0x8001), (0xF00F, 0x8002), (0xF00F, 0x8003), (0xF00F, 0x8004)] ++
  [(0xF00F, 0x8005), (0xF00F, 0x8006), (0xF00F, 0x8007), (0xF00F, 0x800E), (0xF00F, 0x9000)] ++
  [(0xF000, 0xA000), (0xF000, 0xB000), (0xF000, 0xC000), (0xF000, 0xD000), (0xF0FF, 0xE09E)] ++
  [(0xF0FF, 0xE0A1), (0xF0FF, 0xF007), (0xF0FF, 0xF00A), (0xF0FF, 0xF015), (0xF0FF, 0xF018)] ++
  [(0xF0FF, 0xF01E), (0xF0FF, 0xF029), (0xF0FF, 0xF033), (0xF0FF, 0xF055), (0xF0FF, 0xF065)]

/-- Mask and match of row `k` (1 to 35). -/
def rowMaskMatch (k : Nat) : Word × Word := maskMatch.getD (k - 1) (0, 1)

/-! ### The host's question about one row of the opcode table -/

/-- The opcode with bits `w`, numbered as the table numbers them, all bits from `nbits` up being zero.
An instruction is one 16-bit word (R60), so bit 0 is the least significant bit of the opcode. -/
def tableWord (nbits w : Nat) : Word := BitVec.ofNat 16 (w % 2 ^ nbits)

/-- The instruction the decoder reads from the bytes of `tableWord nbits w` laid out in memory order. -/
def decodeTableWord (nbits w : Nat) : Option Instr :=
  match decode (bytesOfWord (tableWord nbits w)) with
  | .ok (i, _) => some i
  | .error _ => none

end Sys2Proof
end

