-- ==== Sys2Proof/Config.lean ====
section
/-! DEFINITION. What an implementation fixes: the sizes of 00_scope.md R4, and the two things the
spec leaves open, the font bytes (parameter `FONT`) and the random bytes (a draw), each an opaque
constant that no proof can evaluate. -/

namespace Sys2Proof

/-- `MEM_SIZE`: memory is the bytes at addresses 0 to 4095 (R4, R40). -/
abbrev Config.memSize : Nat := 4096

/-- `PROG_BASE`: the load address, and the reset value of `pc` (R4). -/
abbrev Config.progBase : Nat := 0x200

/-- `ROM_MAX`: the longest ROM that fits, 4096 - 0x200 (R4, R182). -/
abbrev Config.romMax : Nat := 3584

/-- The length of the font table at addresses 0 to 79 (R4, R41). -/
abbrev Config.fontLen : Nat := 80

/-- `STACK_DEPTH`: the number of return addresses the stack holds (R4, R25). -/
abbrev Config.stackDepth : Nat := 16

/-- `FONT`, the 80 font bytes. DESIGN CHOICE (safe, log entry 2): the spec leaves them an OPEN
parameter (R4, R32; 92_eei_decisions.md D7), so this constant has no body and every claim about the
machine holds for every font. -/
opaque Config.font : Fin 80 → Byte

/-- The font table R32 prints as a default, PRESUMED (safe, log entry 2): the spec marks it as general
knowledge, not in its source. No meaning reads it; a claim about glyph shapes names the assumption
`Config.FontIsDefault`. One line per glyph, five rows of eight pixels each. -/
def Config.defaultFont : List Byte :=
  [0xF0, 0x90, 0x90, 0x90, 0xF0] ++ [0x20, 0x60, 0x20, 0x20, 0x70] ++
  [0xF0, 0x10, 0xF0, 0x80, 0xF0] ++ [0xF0, 0x10, 0xF0, 0x10, 0xF0] ++
  [0x90, 0x90, 0xF0, 0x10, 0x10] ++ [0xF0, 0x80, 0xF0, 0x10, 0xF0] ++
  [0xF0, 0x80, 0xF0, 0x90, 0xF0] ++ [0xF0, 0x10, 0x20, 0x40, 0x40] ++
  [0xF0, 0x90, 0xF0, 0x90, 0xF0] ++ [0xF0, 0x90, 0xF0, 0x10, 0xF0] ++
  [0xF0, 0x90, 0xF0, 0x90, 0x90] ++ [0xE0, 0x90, 0xE0, 0x90, 0xE0] ++
  [0xF0, 0x80, 0x80, 0x80, 0xF0] ++ [0xE0, 0x90, 0x90, 0x90, 0xE0] ++
  [0xF0, 0x80, 0xF0, 0x80, 0xF0] ++ [0xF0, 0x80, 0xF0, 0x80, 0x80]

/-- The assumption that the machine's font is the default table of R32 (no meaning and no obligation
makes it; 93_implementation_defined.md U7 asks a claim about glyph shapes to make it explicitly). -/
def Config.FontIsDefault : Prop := ∀ a : Fin 80, Config.font a = Config.defaultFont.getD a 0

/-- The random byte that the `k`-th executed `Cxnn` of a run takes. DESIGN CHOICE (safe, log entry 1):
a draw under no law (R140, R163; 92_eei_decisions.md D6), so this constant has no body; the index is
the counter `draws` of `State`, advanced by each `Cxnn` and by nothing else. -/
opaque Config.randomByte : Nat → Byte

end Sys2Proof
end

