-- ==== Sys2Proof/Machine/State.lean ====
section
/-! DEFINITION. The machine's state as plain data (10_state.md R20), the six faults (60_exceptions.md
R150), the one refusal, and the initial condition (R32). -/

namespace Sys2Proof.Machine

/-- Memory: (address, byte) pairs, kept by every operation in one canonical form (`Memory.wf`). -/
abbrev Mem := List Host.Cell

/-- The state of the machine. The first eleven fields are the ten entities of R20 (the timers are two
fields); the last two are the MODEL's own (log entries 1 and 3), not the spec's. -/
structure State where
  /-- `mem[0..4095]` (R30, R40). -/
  mem : Mem
  /-- `V[0..15]` (R21, R22). -/
  v : Vector Byte 16
  /-- `I` (R23). -/
  index : Word
  /-- `pc` (R24). -/
  pc : Word
  /-- `stack[0..15]` (R25). -/
  stack : Vector Word 16
  /-- `sp`, 0 to 16: how many return addresses the stack holds (R25). -/
  sp : Fin 17
  /-- `DT`, the delay timer (R26). -/
  dt : Byte
  /-- `ST`, the sound timer (R26). -/
  st : Byte
  /-- `disp[0..31][0..63]` (R27). -/
  disp : Bitmap
  /-- `key[0..15]`, `true` is pressed (R28). -/
  key : Vector Bool 16
  /-- `pause` (R29). -/
  pause : Bool
  /-- The model's own: the result bit `fb_changed` that the last step returned (R80, R132). DESIGN CHOICE,
  log entry 3: the core keeps no copy (R20); no meaning reads the field. -/
  fbChanged : Bool
  /-- The model's own: how many random bytes have been consumed, which names the next draw (R140, R163).
  DESIGN CHOICE, log entry 1. -/
  draws : Nat
  deriving DecidableEq, Repr

/-- The six faults (R150). A fault is the result of the one operation that raised it; the state stays as
it was before that operation (R151, R152), which is why no state comes with it. All are the
spec's, so each is safe: the machine itself reports it and does not move. -/
inductive Fault where
  /-- Raised by the host operation `load` when the ROM is longer than 3584 bytes; carries its length
  (R182). Safe. -/
  | romTooLarge (len : Nat)
  /-- Raised by a step at decode, for a word that matches no row of R64; carries the word (R65). Safe. -/
  | unimplementedOpcode (op : Word)
  /-- Raised by `2nnn` when `sp = 16` (R85). Safe. -/
  | stackOverflow
  /-- Raised by `00EE` when `sp = 0` (R83). Safe. -/
  | stackUnderflow
  /-- Raised by fetch with `pc > 4094`, and by `Fx33`, `Fx55`, `Fx65`, `Dxyn` when their range of addresses
  leaves memory; carries the lowest address out of range, or `pc` for a fetch (R42, R150). Safe. -/
  | addressOutOfRange (addr : Nat)
  /-- Raised by `Ex9E` and `ExA1` when `V[x] > 15`; carries `V[x]` (R141, R142). Safe. -/
  | keyIndexOutOfRange (k : Byte)
  deriving DecidableEq, Repr

/-- Why the model has no answer. Every instruction has its meaning, so no step gives a refusal. -/
inductive Refusal where
  /-- Raised by an arm of `exec` that has no meaning yet, by mnemonic. Safe. No arm is left so. -/
  | notModelled (mnemonic : String)
  deriving DecidableEq, Repr

/-- What an operation of the machine answers. -/
abbrev Result := Host.Outcome State Fault Refusal

/-- The initial condition, established by `create()` and `reset()` (R32, R180). Memory lists nothing: an
unlisted address reads as its reset content (`Memory.unlisted`). The key states are the spec's own
decision D8 (log entry 6); `fbChanged` and `draws` are the model's own (log entries 1 and 3). -/
def State.reset : State where
  mem := []
  v := Vector.replicate 16 0
  index := 0
  pc := 0x200
  stack := Vector.replicate 16 0
  sp := 0
  dt := 0
  st := 0
  disp := Vector.replicate 32 (Vector.replicate 64 false)
  key := Vector.replicate 16 false
  pause := false
  fbChanged := false
  draws := 0

end Sys2Proof.Machine
end

