-- ==== Sys2Proof/Machine/Ops.lean ====
section
/-! DEFINITION. The named operations over memory and registers, and raising a fault: the one place each
piece of state is read and written. -/

namespace Sys2Proof.Machine

/-! ### Memory (20_memory.md) -/

/-- What an address that memory does not list reads as: its reset content (R32, R41), the font in the
first 80 bytes and zero above it. -/
def Memory.unlisted (a : Nat) : Byte :=
  if h : a < Config.fontLen then Config.font ⟨a, h⟩ else 0

/-- The byte at an address (R42's `MemRead(addr, 1)` once the address is known to exist). -/
def Memory.read : Mem → Nat → Byte
  | [], a => Memory.unlisted a
  | c :: rest, a => if c.1 = a then c.2 else Memory.read rest a

/-- Memory without an entry for an address. -/
def Memory.erase (m : Mem) (a : Nat) : Mem := m.filter (fun c => c.1 != a)

/-- Memory with one more entry, put before the first entry at a higher address. -/
def Memory.insert : Mem → Nat → Byte → Mem
  | [], a, b => [(a, b)]
  | c :: rest, a, b => if a < c.1 then (a, b) :: c :: rest else c :: Memory.insert rest a b

/-- The write of one byte (R42's `MemWrite(addr, 1, v)` once the address is known to exist). Writing what
an unlisted address reads as removes the entry, so that equal memories are equal lists. -/
def Memory.write (m : Mem) (a : Nat) (b : Byte) : Mem :=
  if b = Memory.unlisted a then Memory.erase m a else Memory.insert (Memory.erase m a) a b

/-- The bytes at `base, base + 1, …`, `n` of them. -/
def Memory.readBytes (m : Mem) (base n : Nat) : List Byte :=
  (List.range n).map fun k => Memory.read m (base + k)

/-- The write of bytes at `base, base + 1, …` in ascending order. -/
def Memory.writeBytes : Mem → Nat → List Byte → Mem
  | m, _, [] => m
  | m, base, b :: bs => Memory.writeBytes (Memory.write m base b) (base + 1) bs

/-- The canonical form: addresses strictly rising, every one in 0 to 4095, and no entry equal to what an
unlisted address reads as. -/
abbrev Memory.wf (m : Mem) : Prop :=
  m.Pairwise (fun p q => p.1 < q.1) ∧ ∀ c ∈ m, c.1 < Config.memSize ∧ c.2 ≠ Memory.unlisted c.1

/-! ### Faults (60_exceptions.md R151, R152) -/

/-- Raising a fault, the machine's whole exception entry: the operation ends, its result is the fault,
and every write it made is discarded, the fetch's advance of `pc` included, because no state comes with
it. There is no vector, no saved register and no mode to change (R152), and nothing to return from (R154). -/
def raise (f : Fault) : Result := .fault f

/-- Continuing with a value, or raising the fault that stands in its place. -/
def orRaise {α : Type} (e : Except Fault α) (k : α → Result) : Result :=
  match e with
  | .error f => raise f
  | .ok a => k a

/-! ### Checked memory accesses (R42) -/

/-- The check a data access of `n` bytes makes before it does anything: the whole range lies in 0 to 4095,
or the fault carries the lowest address out of range. No byte, no check (R131). DESIGN CHOICE of the spec
(D1, safe, log entry 5). -/
def checkRange (base n : Nat) : Except Fault Unit :=
  if n = 0 ∨ base + n ≤ Config.memSize then .ok ()
  else .error (.addressOutOfRange (max base Config.memSize))

/-- A data read of `n` bytes (R42, R47). -/
def memRead (m : Mem) (base n : Nat) : Except Fault (List Byte) :=
  match checkRange base n with
  | .error f => .error f
  | .ok _ => .ok (Memory.readBytes m base n)

/-- A data write of some bytes at ascending addresses (R42, R47). -/
def memWrite (m : Mem) (base : Nat) (bytes : List Byte) : Except Fault Mem :=
  match checkRange base bytes.length with
  | .error f => .error f
  | .ok _ => .ok (Memory.writeBytes m base bytes)

/-- The read of an opcode, `MemRead(pc, 2)`: big-endian, at any `pc` up to 4094, odd ones too (R43, R44);
above that the fault carries `pc` (R42). -/
def memReadOpcode (m : Mem) (pc : Nat) : Except Fault Word :=
  if pc + 2 ≤ Config.memSize then .ok (assemble (Memory.read m pc) (Memory.read m (pc + 1)))
  else .error (.addressOutOfRange pc)

/-! ### Registers, one update for each field of `State` -/

/-- The read of `V[k]` (R21). -/
def State.reg (s : State) (k : Reg) : Byte := s.v[k.val]

/-- `V[k] <- b` (R21). -/
def State.setV (s : State) (k : Reg) (b : Byte) : State := { s with v := s.v.set k.val b }

/-- The whole register file at once (for the block load R125). -/
def State.setVs (s : State) (v : Vector Byte 16) : State := { s with v := v }

/-- `I <- w` (R23). -/
def State.setIndex (s : State) (w : Word) : State := { s with index := w }

/-- `pc <- w` (R24). -/
def State.setPc (s : State) (w : Word) : State := { s with pc := w }

/-- The stack slots. -/
def State.setStack (s : State) (st : Vector Word 16) : State := { s with stack := st }

/-- `sp <- n` (R25). -/
def State.setSp (s : State) (n : Fin 17) : State := { s with sp := n }

/-- `DT <- b` (R26). -/
def State.setDt (s : State) (b : Byte) : State := { s with dt := b }

/-- `ST <- b` (R26). -/
def State.setSt (s : State) (b : Byte) : State := { s with st := b }

/-- The display (R27). -/
def State.setDisp (s : State) (d : Bitmap) : State := { s with disp := d }

/-- `key[k] <- pressed` (R28). -/
def State.setKey (s : State) (k : Key) (pressed : Bool) : State := { s with key := s.key.set k.val pressed }

/-- `pause <- b` (R29). -/
def State.setPause (s : State) (b : Bool) : State := { s with pause := b }

/-- Memory. -/
def State.setMem (s : State) (m : Mem) : State := { s with mem := m }

/-- `fb_changed <- b` (R8, R80). -/
def State.setFb (s : State) (b : Bool) : State := { s with fbChanged := b }

/-- The count of random bytes consumed. -/
def State.setDraws (s : State) (n : Nat) : State := { s with draws := n }

/-! ### Program counter -/

/-- `pc <- pc + 2`: the fetch's advance (R81) and a taken skip (R86). -/
def State.advance (s : State) : State := s.setPc (s.pc + 2)

/-- `pc <- pc - 2`: the rewind of the key wait (R144). -/
def State.rewind (s : State) : State := s.setPc (s.pc - 2)

/-- A skip: the next instruction is passed over if the condition holds (R86). -/
def State.skipIf (s : State) (c : Bool) : State := if c then s.advance else s

/-! ### The stack (R25) -/

/-- Push: `StackOverflow` when 16 return addresses are held; else the value goes to slot `sp` and `sp` grows.
That `sp` counts entries and names the next free slot is the spec's decision D4 (log entry 7). -/
def State.push (s : State) (w : Word) : Except Fault State :=
  if h : s.sp.val < 16 then
    .ok ((s.setStack (s.stack.set s.sp.val w)).setSp ⟨s.sp.val + 1, Nat.succ_lt_succ h⟩)
  else .error .stackOverflow

/-- Pop: `StackUnderflow` when the stack is empty; else `sp` shrinks and the value is the slot it now names,
which keeps its value (D4, log entry 7). -/
def State.pop (s : State) : Except Fault (Word × State) :=
  if h : 0 < s.sp.val then
    .ok (s.stack[s.sp.val - 1], s.setSp ⟨s.sp.val - 1, by omega⟩)
  else .error .stackUnderflow

/-! ### Keypad and random source -/

/-- Whether a key is pressed (R28). -/
def State.pressed (s : State) (k : Key) : Bool := s.key[k.val]

/-- The lowest-numbered pressed key, if any (R144: "scan keys low→high"). -/
def State.lowestKey (s : State) : Option Key := (List.finRange 16).find? s.pressed

/-- The random byte of this step (R140, R163): the draw the counter names, a free value (log entry 1). -/
def State.rand (s : State) : Byte := Config.randomByte s.draws

/-- One random byte is consumed (R140: exactly one per executed `Cxnn`). -/
def State.consumeRand (s : State) : State := s.setDraws (s.draws + 1)

/-! ### Display (R27) -/

/-- `disp[r][c]`. -/
def Bitmap.pixel (d : Bitmap) (r : Row) (c : Col) : Bool := d[r.val][c.val]

/-- `disp[r][c] <- not disp[r][c]`. -/
def Bitmap.toggle (d : Bitmap) (r : Row) (c : Col) : Bitmap :=
  d.set r.val (d[r.val].set c.val (!d[r.val][c.val]))

/-- The display with no pixel set. -/
def Bitmap.clear : Bitmap := Vector.replicate 32 (Vector.replicate 64 false)

end Sys2Proof.Machine
end

