-- ==== Sys2Proof/Machine/Operands.lean ====
section
/-! DEFINITION. The operand forms (30_encoding.md R63; 42_index_and_memory.md R126): a register's value, an
address literal zero-extended, the addresses `I + k`, a key number held in a register. -/

namespace Sys2Proof.Machine

/-- The unsigned value of `V[x]`, 0 to 255 (R63). -/
def regNat (s : State) (x : Reg) : Nat := (s.reg x).toNat

/-- `nnn` zero-extended to the 16 bits of `pc` or `I` (R63). -/
def literalWord (nnn : Addr12) : Word := nnn.setWidth 16

/-- The base address `I` of every data access, an unbounded number that is never wrapped (R42, R126). -/
def baseAddr (s : State) : Nat := s.index.toNat

/-- The registers `V[0]` to `V[x]` in order, `x + 1` of them (R124). -/
def regsUpTo (s : State) (x : Reg) : List Byte := s.v.toList.take (x.val + 1)

/-- Bytes put into consecutive registers from `V[k]` on (R125). -/
def loadInto : Vector Byte 16 → Nat → List Byte → Vector Byte 16
  | v, _, [] => v
  | v, k, b :: bs => loadInto (v.setIfInBounds k b) (k + 1) bs

/-- The key that `V[x]` names; above 15 there is none and the fault carries the value (R141, R142).
DESIGN CHOICE of the spec (D2, safe, log entry 5). -/
def keyOperand (s : State) (x : Reg) : Except Fault Key :=
  if h : (s.reg x).toNat < 16 then .ok ⟨(s.reg x).toNat, h⟩
  else .error (.keyIndexOutOfRange (s.reg x))

/-- The hundreds, tens and ones of a byte, each a binary byte (R123). -/
def bcdDigits (b : Byte) : List Byte :=
  [BitVec.ofNat 8 (b.toNat / 100), BitVec.ofNat 8 (b.toNat / 10 % 10), BitVec.ofNat 8 (b.toNat % 10)]

end Sys2Proof.Machine
end

