-- ==== Sys2Proof/Machine/Flags.lean ====
section
/-! DEFINITION. Results brought to a register's width (00_scope.md R7) and every flag computation
(10_state.md R22; 41_load_and_alu.md R111): carry, not-borrow, the shifted-out bit, collision. -/

namespace Sys2Proof.Machine

/-- An exact result brought to 8 bits, `mod 256` (R7). -/
def narrow (n : Nat) : Byte := BitVec.ofNat 8 n

/-- A flag as `VF` holds it: exactly 0 or 1 (R22). -/
def flagByte (f : Bool) : Byte := if f then 1 else 0

/-- Carry: the true sum is at least 256 (R106). -/
def carry (a b : Byte) : Bool := a.toNat + b.toNat > 255

/-- Not-borrow: minuend at least subtrahend (R107, R109). -/
def notBorrow (a b : Byte) : Bool := !(a.toNat < b.toNat)

/-- Bit 0, shifted out to the right (R108). -/
def lowBit (a : Byte) : Bool := a.toNat % 2 = 1

/-- Bit 7, shifted out to the left (R110). -/
def topBit (a : Byte) : Bool := a.toNat / 128 % 2 = 1

/-- The wrapped difference `(a - b) mod 256` (R107). -/
def difference (a b : Byte) : Byte := narrow (a.toNat + 256 - b.toNat)

/-- The write order of the five flag-writing register instructions: the result to `V[x]`, then the flag to
`VF` last, so that with `x = 15` the flag survives (R22). For the two shifts the order is the spec's resolution
C1 of 90_conflicts.md (D19, log entry 8). -/
def State.setResultFlag (s : State) (x : Reg) (r : Byte) (f : Bool) : State :=
  (s.setV x r).setV VF (flagByte f)

end Sys2Proof.Machine
end

