-- ==== Sys2Proof/Machine/Cycle.lean ====
section
/-! DEFINITION. The step cycle around `exec` (40_step_cycle_and_control.md R80, R81): pause, fetch, decode; and
placing an instruction where the next step fetches it. `Step.lean` ties these to `exec`. -/

namespace Sys2Proof.Machine

/-- `fetch()`: the opcode at `pc`, and the state with `pc` advanced by 2; or the address fault (R81). -/
def fetch (s : State) : Except Fault (Word × State) :=
  match memReadOpcode s.mem s.pc.toNat with
  | .error f => .error f
  | .ok op => .ok (op, s.advance)

/-- The instruction of a fetched word, or the unimplemented-opcode fault with the word (R65, R80). -/
def decodeFetched (op : Word) : Except Fault Instr :=
  match decodeWord op with
  | none => .error (.unimplementedOpcode op)
  | some i => .ok i

/-- What a paused step answers: nothing fetched, nothing changed, `fb_changed = false` (R80). -/
def pausedStep (s : State) : Result := .next (s.setFb false)

/-- `step()` over a given executor: the gate of `pause`, then fetch, decode, `fb_changed <- false`, execute, in
that order, the first fault ending it (R80, R155). -/
def stepWith (run : Instr → State → Result) (s : State) : Result :=
  if s.pause then pausedStep s
  else
    orRaise (fetch s) fun fetched =>
      orRaise (decodeFetched fetched.1) fun i => run i (fetched.2.setFb false)

/-- The state with a word stored big-endian where the next step fetches: at `pc` and `pc + 1`, with `pause`
cleared since a paused step fetches nothing (R80), and with `pc` put back to 0x200 only where it names no two
bytes of memory (log entry 4). -/
def placeWord (s : State) (op : Word) : State :=
  let at' : Word := if s.pc.toNat + 2 ≤ Config.memSize then s.pc else 0x200
  ((s.setPc at').setMem (Memory.writeBytes s.mem at'.toNat (bytesOfWord op))).setPause false

end Sys2Proof.Machine
end

