-- ==== Sys2Proof/Machine/Alu.lean ====
section
/-! DEFINITION. The register load and ALU instructions (41_load_and_alu.md R100 to R111). All arithmetic is
unsigned, computed exactly and narrowed to 8 bits (R111). -/

namespace Sys2Proof.Machine

/-- `6xnn` `LD Vx, nn` (R100). -/
def execLdImm (x : Reg) (nn : Byte) (s : State) : Result := .next (s.setV x nn)

/-- `7xnn` `ADD Vx, nn` (R101): wraps, no flag. -/
def execAddImm (x : Reg) (nn : Byte) (s : State) : Result :=
  .next (s.setV x (narrow (regNat s x + nn.toNat)))

/-- `8xy0` `LD Vx, Vy` (R102). -/
def execLdReg (x y : Reg) (s : State) : Result := .next (s.setV x (s.reg y))

/-- `8xy1` `OR Vx, Vy` (R103): `VF` left alone (D10). -/
def execOrReg (x y : Reg) (s : State) : Result := .next (s.setV x (s.reg x ||| s.reg y))

/-- `8xy2` `AND Vx, Vy` (R104): `VF` left alone (D10). -/
def execAndReg (x y : Reg) (s : State) : Result := .next (s.setV x (s.reg x &&& s.reg y))

/-- `8xy3` `XOR Vx, Vy` (R105): `VF` left alone (D10). -/
def execXorReg (x y : Reg) (s : State) : Result := .next (s.setV x (s.reg x ^^^ s.reg y))

/-- `8xy4` `ADD Vx, Vy` (R106): the sum, then the carry. -/
def execAddReg (x y : Reg) (s : State) : Result :=
  .next (s.setResultFlag x (narrow (regNat s x + regNat s y)) (carry (s.reg x) (s.reg y)))

/-- `8xy5` `SUB Vx, Vy` (R107): `Vx - Vy`, then 1 for no borrow. -/
def execSubReg (x y : Reg) (s : State) : Result :=
  .next (s.setResultFlag x (difference (s.reg x) (s.reg y)) (notBorrow (s.reg x) (s.reg y)))

/-- `8xy6` `SHR Vx` (R108): `Vx` shifted in place, `y` ignored (R66). -/
def execShr (x _y : Reg) (s : State) : Result :=
  .next (s.setResultFlag x (narrow (regNat s x / 2)) (lowBit (s.reg x)))

/-- `8xy7` `SUBN Vx, Vy` (R109): `Vy - Vx`, then 1 for no borrow. -/
def execSubnReg (x y : Reg) (s : State) : Result :=
  .next (s.setResultFlag x (difference (s.reg y) (s.reg x)) (notBorrow (s.reg y) (s.reg x)))

/-- `8xyE` `SHL Vx` (R110): `Vx` shifted in place, `y` ignored (R66). -/
def execShl (x _y : Reg) (s : State) : Result :=
  .next (s.setResultFlag x (narrow (2 * regNat s x)) (topBit (s.reg x)))

end Sys2Proof.Machine
end

