-- ==== Sys2Proof/Machine/Control.lean ====
section
/-! DEFINITION. The control-transfer instructions and `NOP` (40_step_cycle_and_control.md R82 to R91). In every
meaning of the model `pc` has already been advanced past the instruction (R81). -/

namespace Sys2Proof.Machine

/-- `0000` `NOP` (R82): nothing. -/
def execNop (s : State) : Result := .next s

/-- `00EE` `RET` (R83): pop into `pc`, or `StackUnderflow`. -/
def execRet (s : State) : Result := orRaise s.pop fun popped => .next (popped.2.setPc popped.1)

/-- `1nnn` `JP nnn` (R84). -/
def execJp (nnn : Addr12) (s : State) : Result := .next (s.setPc (literalWord nnn))

/-- `2nnn` `CALL nnn` (R85): push the advanced `pc`, or `StackOverflow`. -/
def execCall (nnn : Addr12) (s : State) : Result :=
  orRaise (s.push s.pc) fun t => .next (t.setPc (literalWord nnn))

/-- `3xnn` `SE Vx, nn` (R86). -/
def execSeImm (x : Reg) (nn : Byte) (s : State) : Result := .next (s.skipIf (s.reg x == nn))

/-- `4xnn` `SNE Vx, nn` (R87). -/
def execSneImm (x : Reg) (nn : Byte) (s : State) : Result := .next (s.skipIf (s.reg x != nn))

/-- `5xy0` `SE Vx, Vy` (R88). -/
def execSeReg (x y : Reg) (s : State) : Result := .next (s.skipIf (s.reg x == s.reg y))

/-- `9xy0` `SNE Vx, Vy` (R89). -/
def execSneReg (x y : Reg) (s : State) : Result := .next (s.skipIf (s.reg x != s.reg y))

/-- `Bnnn` `JP V0, nnn` (R90): the sum at 16 bits, not masked to 12 (D21). -/
def execJpV0 (nnn : Addr12) (s : State) : Result :=
  .next (s.setPc (BitVec.ofNat 16 (regNat s 0 + nnn.toNat)))

end Sys2Proof.Machine
end

