-- ==== Sys2Proof/Machine/Display.lean ====
section
/-! DEFINITION. The display instructions and the collision detector (43_display.md R130 to R132). -/

namespace Sys2Proof.Machine

/-- `00E0` `CLS` (R130): `fb_changed` stays false (R132). -/
def execCls (s : State) : Result := .next (s.setDisp Bitmap.clear)

/-- Bit `7 - col` of a sprite row byte: bit 7 is column 0 (R131). -/
def spriteBit (b : Byte) (col : Nat) : Bool := b.getLsbD (7 - col)

/-- One bit of the sprite: where it is set, the pixel at `((vx + col) mod 64, (vy + row) mod 32)` toggles, and a
pixel that was set is a collision (R131). -/
def drawPixel (vx vy row : Nat) (b : Byte) (acc : Bitmap × Bool) (col : Nat) : Bitmap × Bool :=
  if spriteBit b col then
    (Bitmap.toggle acc.1 (Fin.ofNat 32 (vy + row)) (Fin.ofNat 64 (vx + col)),
      acc.2 || Bitmap.pixel acc.1 (Fin.ofNat 32 (vy + row)) (Fin.ofNat 64 (vx + col)))
  else acc

/-- The eight bits of one sprite row, bit 7 first (R131). -/
def drawRow (vx vy row : Nat) (b : Byte) (acc : Bitmap × Bool) : Bitmap × Bool :=
  (List.range 8).foldl (drawPixel vx vy row b) acc

/-- The rows of a sprite, from a given row number on (R131). -/
def drawRows (vx vy : Nat) : Nat → List Byte → Bitmap × Bool → Bitmap × Bool
  | _, [], acc => acc
  | row, b :: bs, acc => drawRows vx vy (row + 1) bs (drawRow vx vy row b acc)

/-- `Dxyn` `DRW Vx, Vy, n` (R131): `n` rows from `I`, position read before `VF` is written, `VF` the collision
flag, `fb_changed` true. -/
def execDrw (x y : Reg) (n : Nat) (s : State) : Result :=
  orRaise (memRead s.mem (baseAddr s) n) fun rows =>
    let drawn := drawRows (regNat s x) (regNat s y) 0 rows (s.disp, false)
    .next (((s.setDisp drawn.1).setV VF (flagByte drawn.2)).setFb true)

end Sys2Proof.Machine
end

