-- ==== Sys2Proof/Machine/IndexMem.lean ====
section
/-! DEFINITION. The index register and memory instructions (42_index_and_memory.md R120 to R126). The base `I` is
the same after every access as before it (R126, D9). -/

namespace Sys2Proof.Machine

/-- `Annn` `LD I, nnn` (R120). -/
def execLdIndex (nnn : Addr12) (s : State) : Result := .next (s.setIndex (literalWord nnn))

/-- `Fx1E` `ADD I, Vx` (R121): wraps at 65536, no flag. -/
def execAddIndex (x : Reg) (s : State) : Result :=
  .next (s.setIndex (BitVec.ofNat 16 (s.index.toNat + regNat s x)))

/-- `Fx29` `LD F, Vx` (R122): the whole byte times 5, not masked (D21). -/
def execLdFont (x : Reg) (s : State) : Result :=
  .next (s.setIndex (BitVec.ofNat 16 (regNat s x * 5)))

/-- `Fx33` `LD B, Vx` (R123): hundreds, tens, ones at `I`, `I+1`, `I+2`. -/
def execLdBcd (x : Reg) (s : State) : Result :=
  orRaise (memWrite s.mem (baseAddr s) (bcdDigits (s.reg x))) fun m => .next (s.setMem m)

/-- `Fx55` `LD [I], Vx` (R124): `V[0]` to `V[x]` at `I` to `I+x`. -/
def execStoreRegs (x : Reg) (s : State) : Result :=
  orRaise (memWrite s.mem (baseAddr s) (regsUpTo s x)) fun m => .next (s.setMem m)

/-- `Fx65` `LD Vx, [I]` (R125): `V[0]` to `V[x]` from `I` to `I+x`. -/
def execLoadRegs (x : Reg) (s : State) : Result :=
  orRaise (memRead s.mem (baseAddr s) (x.val + 1)) fun bytes => .next (s.setVs (loadInto s.v 0 bytes))

end Sys2Proof.Machine
end

