-- ==== Sys2Proof/Machine/System.lean ====
section
/-! DEFINITION. The random, keypad and timer instructions (44_keypad_timer_random.md R140 to R147). -/

namespace Sys2Proof.Machine

/-- `Cxnn` `RND Vx, nn` (R140): one random byte consumed, masked by `nn`. -/
def execRnd (x : Reg) (nn : Byte) (s : State) : Result := .next ((s.setV x (s.rand &&& nn)).consumeRand)

/-- `Ex9E` `SKP Vx` (R141). -/
def execSkp (x : Reg) (s : State) : Result := orRaise (keyOperand s x) fun k => .next (s.skipIf (s.pressed k))

/-- `ExA1` `SKNP Vx` (R142). -/
def execSknp (x : Reg) (s : State) : Result :=
  orRaise (keyOperand s x) fun k => .next (s.skipIf (!s.pressed k))

/-- `Fx07` `LD Vx, DT` (R143). -/
def execLdFromDt (x : Reg) (s : State) : Result := .next (s.setV x s.dt)

/-- `Fx0A` `LD Vx, K` (R144): the lowest pressed key, or `pc` back to this instruction. -/
def execLdKey (x : Reg) (s : State) : Result :=
  match s.lowestKey with
  | some k => .next (s.setV x (narrow k.val))
  | none => .next s.rewind

/-- `Fx15` `LD DT, Vx` (R145). -/
def execLdDt (x : Reg) (s : State) : Result := .next (s.setDt (s.reg x))

/-- `Fx18` `LD ST, Vx` (R146). -/
def execLdSt (x : Reg) (s : State) : Result := .next (s.setSt (s.reg x))

end Sys2Proof.Machine
end

