-- ==== Sys2Proof/Machine/Step.lean ====
section
/-! DEFINITION. `step()`: the step cycle of 40_step_cycle_and_control.md R80 over `exec`; and the host's placing
of one instruction where the next step fetches it. -/

namespace Sys2Proof.Machine

/-- One step: a paused machine does nothing; otherwise exactly one instruction is fetched, decoded and executed,
or the step faults and the state stays as it was (R80, R151). -/
def step (s : State) : Host.Outcome State Fault Refusal := stepWith exec s

/-- The state whose next step fetches and runs the instruction with bits `w` of the opcode table's numbering
(log entry 4). It stands for the host's `load`, by which a program comes to run (R183). -/
def State.withFetchWord (s : State) (nbits w : Nat) : State := placeWord s (tableWord nbits w)

end Sys2Proof.Machine
end

