-- ==== Sys2Proof/Machine/Operations.lean ====
section
/-! DEFINITION. The core's whole interface (00_scope.md R5): the lifecycle operations (70_reset_and_hazards.md R180
to R182), the timer tick, keypad, display and pause ports (60_exceptions.md R159 to R162), each one atomic
transition; `perform` issues one of them, `performAll` a host schedule. -/

namespace Sys2Proof.Machine

/-- `create()`: a machine in the initial condition (R180). -/
def create : State := State.reset

/-- `reset()`: every entity of R20 back to the initial condition, a loaded ROM erased (R181). The count of random
bytes consumed is the model's own field and goes on, so that no draw is taken twice (log entry 1). -/
def resetMachine (s : State) : State := State.reset.setDraws s.draws

/-- `load(bytes)`: the bytes copied to memory from 0x200 on and nothing else changed, or `RomTooLarge` (R182). -/
def load (bytes : List Byte) (s : State) : Result :=
  if bytes.length ≤ Config.romMax then .next (s.setMem (Memory.writeBytes s.mem Config.progBase bytes))
  else raise (.romTooLarge bytes.length)

/-- `set_key(index, pressed)` (R160). -/
def setKeyState (k : Key) (pressed : Bool) (s : State) : State := s.setKey k pressed

/-- A timer counts down and never wraps (R159). -/
def countDown (b : Byte) : Byte := if b = 0 then 0 else b - 1

/-- `tick_timers()`: both timers count down, and `beep` is true at the tick that takes `ST` from 1 to 0; a paused
machine does not count (R159). -/
def tickTimers (s : State) : State × Bool :=
  if s.pause then (s, false)
  else ((s.setDt (countDown s.dt)).setSt (countDown s.st), s.st == 1)

/-- `display()`: the bitmap as it is (R161). -/
def display (s : State) : Bitmap := s.disp

/-- The write of `pause` by the host (R162). -/
def writePause (b : Bool) (s : State) : State := s.setPause b

/-- The operations a host can issue (R5; the read and the write of `pause` are two). -/
inductive Operation where
  | create
  | reset
  | load (bytes : List Byte)
  | setKey (k : Key) (pressed : Bool)
  | step
  | tickTimers
  | display
  | readPause
  | writePause (b : Bool)
  deriving DecidableEq, Repr

/-- What an operation returns to the host (R5). -/
inductive Response where
  /-- Nothing, or `ok`. -/
  | done
  /-- The result bit of a step (R80). -/
  | fbChanged (b : Bool)
  /-- The result bit of a tick (R159). -/
  | beep (b : Bool)
  | bitmap (d : Bitmap)
  | paused (b : Bool)
  /-- The fault of an operation that was rejected (R152). -/
  | fault (f : Fault)
  /-- The model has no answer (no operation gives this). -/
  | refused (r : Refusal)
  deriving DecidableEq, Repr

/-- Apply or reject: the new state and what it reports, or the fault with the state as it was before the
operation (R151). -/
def settle (old : State) (r : Result) (report : State → Response) : State × Response :=
  match r with
  | .next t => (t, report t)
  | .fault f => (old, .fault f)
  | .refused q => (old, .refused q)

/-- One operation: the state after it and what it returns. The random bytes of a run are one stream, so a machine
that `create` puts in place of this one goes on with the stream (log entry 1). -/
def perform (o : Operation) (s : State) : State × Response :=
  match o with
  | .create => (Machine.create.setDraws s.draws, .done)
  | .reset => (resetMachine s, .done)
  | .load bytes => settle s (Machine.load bytes s) fun _ => .done
  | .setKey k pressed => (setKeyState k pressed s, .done)
  | .step => settle s (Machine.step s) fun t => .fbChanged t.fbChanged
  | .tickTimers => ((Machine.tickTimers s).1, .beep (Machine.tickTimers s).2)
  | .display => (s, .bitmap (Machine.display s))
  | .readPause => (s, .paused s.pause)
  | .writePause b => (Machine.writePause b s, .done)

/-- The state after a host schedule, operation by operation (R5: any operations, in any order and number). -/
def performAll : List Operation → State → State
  | [], s => s
  | o :: os, s => performAll os (perform o s).1

end Sys2Proof.Machine
end

