-- ==== Sys2Proof/Safety.lean ====
section
/-! DEFINITION. The terms claims use: the parts of the state and how each is read, what a change leaves alone,
which parts each instruction may write (10_state.md R34), when an instruction faults (60_exceptions.md R150),
and the invariant of reachable states (10_state.md R33). -/

namespace Sys2Proof

open Machine

/-- Every piece of state that can be read on its own: the entities of R20, one part per register, slot, pixel,
key and byte, and the model's own two fields. -/
inductive Part where
  | v (k : Reg)
  | index
  | pc
  | slot (k : Fin 16)
  | sp
  | dt
  | st
  | pixel (r : Row) (c : Col)
  | key (k : Key)
  | pause
  | mem (a : Nat)
  | fbChanged
  | draws
  deriving DecidableEq, Repr

/-- What a part holds, as an unsigned number (a boolean as 0 or 1). -/
def Machine.State.view (s : State) : Part → Nat
  | .v k => (s.reg k).toNat
  | .index => s.index.toNat
  | .pc => s.pc.toNat
  | .slot k => s.stack[k.val].toNat
  | .sp => s.sp.val
  | .dt => s.dt.toNat
  | .st => s.st.toNat
  | .pixel r c => (Bitmap.pixel s.disp r c).toNat
  | .key k => (s.pressed k).toNat
  | .pause => s.pause.toNat
  | .mem a => (Memory.read s.mem a).toNat
  | .fbChanged => s.fbChanged.toNat
  | .draws => s.draws

/-- The frame: from `s` to `t`, every part outside `W` holds what it held. -/
def OnlyChanges (s t : State) (W : Part → Prop) : Prop := ∀ p, ¬ W p → t.view p = s.view p

/-- The pixels under a sprite of `n` rows drawn at `(vx, vy)`, wrapped per pixel (R131). -/
def UnderSprite (vx vy n : Nat) (r : Row) (c : Col) : Prop :=
  ∃ row col, row < n ∧ col < 8 ∧ r.val = (vy + row) % 32 ∧ c.val = (vx + col) % 64

/-- The pixels that the set bits of a sprite at `I` hit: row byte `row` is `mem[I + row]`, its bit `7 - col`
is column `col` (R131). -/
def SpriteSets (s : State) (x y : Reg) (n : Nat) (r : Row) (c : Col) : Prop :=
  ∃ row col, row < n ∧ col < 8 ∧ r.val = (s.view (.v y) + row) % 32 ∧ c.val = (s.view (.v x) + col) % 64 ∧
    s.view (.mem (s.view .index + row)) / 2 ^ (7 - col) % 2 = 1

/-- The parts an instruction may write in a state, from the summary R34 and the instruction rules it sums up: the
slot of `CALL` from R25 and R85 (D4, log entry 7), the pixels under a sprite from R131, and `I`, `VF` and `fb_changed`
kept where the spec reads them as kept (D9, D10, D20, log entry 8). The fetch's advance of `pc` has happened before
and is not counted here. -/
def Writes (i : Instr) (s : State) (p : Part) : Prop :=
  match i with
  | .nop => False
  | .cls => ∃ r c, p = .pixel r c
  | .ret => p = .pc ∨ p = .sp
  | .jp _ => p = .pc
  | .call _ => p = .pc ∨ p = .sp ∨ ∃ k : Fin 16, k.val = s.sp.val ∧ p = .slot k
  | .seImm _ _ => p = .pc
  | .sneImm _ _ => p = .pc
  | .seReg _ _ => p = .pc
  | .ldImm x _ => p = .v x
  | .addImm x _ => p = .v x
  | .ldReg x _ => p = .v x
  | .orReg x _ => p = .v x
  | .andReg x _ => p = .v x
  | .xorReg x _ => p = .v x
  | .addReg x _ => p = .v x ∨ p = .v VF
  | .subReg x _ => p = .v x ∨ p = .v VF
  | .shr x _ => p = .v x ∨ p = .v VF
  | .subnReg x _ => p = .v x ∨ p = .v VF
  | .shl x _ => p = .v x ∨ p = .v VF
  | .sneReg _ _ => p = .pc
  | .ldIndex _ => p = .index
  | .jpV0 _ => p = .pc
  | .rnd x _ => p = .v x ∨ p = .draws
  | .drw x y n =>
    p = .v VF ∨ p = .fbChanged ∨
      ∃ r c, UnderSprite (s.view (.v x)) (s.view (.v y)) n r c ∧ p = .pixel r c
  | .skp _ => p = .pc
  | .sknp _ => p = .pc
  | .ldFromDt x => p = .v x
  | .ldKey x => p = .pc ∨ p = .v x
  | .ldDt _ => p = .dt
  | .ldSt _ => p = .st
  | .addIndex _ => p = .index
  | .ldFont _ => p = .index
  | .ldBcd _ => ∃ k, k < 3 ∧ p = .mem (baseAddr s + k)
  | .storeRegs x => ∃ k, k ≤ x.val ∧ p = .mem (baseAddr s + k)
  | .loadRegs x => ∃ k : Reg, k ≤ x ∧ p = .v k

/-- The fault an instruction raises in a state, if any: the rows 3 to 6 of R150 that an executing instruction can
raise, each with its exact condition. -/
def faultIn (i : Instr) (s : State) : Option Fault :=
  match i with
  | .call _ => if s.sp.val = 16 then some .stackOverflow else none
  | .ret => if s.sp.val = 0 then some .stackUnderflow else none
  | .ldBcd _ =>
    if s.index.toNat + 2 > 4095 then some (.addressOutOfRange (max (s.index.toNat) 4096)) else none
  | .storeRegs x =>
    if s.index.toNat + x.val > 4095 then some (.addressOutOfRange (max (s.index.toNat) 4096)) else none
  | .loadRegs x =>
    if s.index.toNat + x.val > 4095 then some (.addressOutOfRange (max (s.index.toNat) 4096)) else none
  | .drw _ _ n =>
    if n > 0 ∧ s.index.toNat + n - 1 > 4095 then some (.addressOutOfRange (max (s.index.toNat) 4096)) else none
  | .skp x => if (s.reg x).toNat > 15 then some (.keyIndexOutOfRange (s.reg x)) else none
  | .sknp x => if (s.reg x).toNat > 15 then some (.keyIndexOutOfRange (s.reg x)) else none
  | .nop | .cls | .jp _ | .seImm _ _ | .sneImm _ _ | .seReg _ _ | .sneReg _ _ | .jpV0 _ => none
  | .ldImm _ _ | .addImm _ _ | .ldReg _ _ | .orReg _ _ | .andReg _ _ | .xorReg _ _ => none
  | .addReg _ _ | .subReg _ _ | .shr _ _ | .subnReg _ _ | .shl _ _ => none
  | .ldIndex _ | .addIndex _ | .ldFont _ => none
  | .rnd _ _ | .ldFromDt _ | .ldKey _ | .ldDt _ | .ldSt _ => none

/-- The word at `pc`, big-endian (R43); meaningful where both its bytes exist. -/
def Machine.State.nextWord (s : State) : Word :=
  assemble (Memory.read s.mem s.pc.toNat) (Memory.read s.mem (s.pc.toNat + 1))

/-- The state in which the instruction at `pc` starts to execute: `pc` advanced by 2 and `fb_changed` false
(R80, R81). -/
def Machine.State.fetched (s : State) : State := (s.setPc (s.pc + 2)).setFb false

/-- The machine is not paused and both bytes at `pc` exist, so that the next step fetches `nextWord`. -/
def Machine.State.Fetches (s : State) : Prop := s.pause = false ∧ s.pc.toNat ≤ 4094

/-- The next step fetches and runs instruction `i`. -/
def Machine.State.Runs (s : State) (i : Instr) : Prop := s.Fetches ∧ decodeWord s.nextWord = some i

/-- The invariant of reachable states: memory is in canonical form, `pc` is in 0..4350, and every held return
address is in 2..4096 (R33). The remaining bounds of R33 are in the types. -/
def Machine.State.Inv (s : State) : Prop :=
  Memory.wf s.mem ∧ s.pc.toNat ≤ 4350 ∧
    ∀ k : Fin 16, k.val < s.sp.val → 2 ≤ s.stack[k.val].toNat ∧ s.stack[k.val].toNat ≤ 4096

/-- A run that a host can make: some operations from the initial condition (R5, R33). -/
def Machine.State.Reachable (s : State) : Prop := ∃ ops, s = performAll ops State.reset

/-- A safe run of the machine alone: none of its next `k` steps faults or is refused. -/
def Machine.State.SafeFor : Nat → State → Prop
  | 0, _ => True
  | k + 1, s => ∃ t, step s = .next t ∧ Machine.State.SafeFor k t

end Sys2Proof
end

