-- ==== Sys2Proof/Certificates/Slice0/Obligations.lean ====
section
/-! DEFINITION. The statements for the provers. Each is written from the numbered rules of spec/, in numbers, and
not through the model's flag or display functions. In every statement about `exec`, `pc` has already been advanced
past the instruction (R81), and `OnlyChanges s t W` is the frame: every part of the state outside `W`, every byte of
memory included, reads in `t` as it read in `s`. -/

namespace Sys2Proof

/-- The word of format `A` (R62), as a sum. -/
def wordA (major : Nat) (nnn : Addr12) : Word := BitVec.ofNat 16 (4096 * major + nnn.toNat)

/-- The word of format `XI` (R62), as a sum. -/
def wordXI (major : Nat) (x : Reg) (nn : Byte) : Word := BitVec.ofNat 16 (4096 * major + 256 * x.val + nn.toNat)

/-- The word of formats `XY` and `XYN` (R62), as a sum. -/
def wordXY (major : Nat) (x y : Reg) (last : Nat) : Word :=
  BitVec.ofNat 16 (4096 * major + 256 * x.val + 16 * y.val + last)

/-- The word of format `X` (R62), as a sum. -/
def wordX (major : Nat) (x : Reg) (minor : Nat) : Word := BitVec.ofNat 16 (4096 * major + 256 * x.val + minor)

/-- The six spaces of illegal words that R65 lists. -/
def IllegalWord (op : Word) : Prop :=
  (op.toNat / 4096 = 0 ∧ op.toNat ≠ 0 ∧ op.toNat ≠ 0xE0 ∧ op.toNat ≠ 0xEE) ∨
  (op.toNat / 4096 = 5 ∧ op.toNat % 16 ≠ 0) ∨
  (op.toNat / 4096 = 8 ∧ op.toNat % 16 ∈ [0x8, 0x9, 0xA, 0xB, 0xC, 0xD, 0xF]) ∨
  (op.toNat / 4096 = 9 ∧ op.toNat % 16 ≠ 0) ∨
  (op.toNat / 4096 = 0xE ∧ op.toNat % 256 ≠ 0x9E ∧ op.toNat % 256 ≠ 0xA1) ∨
  (op.toNat / 4096 = 0xF ∧ op.toNat % 256 ∉ [0x07, 0x0A, 0x15, 0x18, 0x1E, 0x29, 0x33, 0x55, 0x65])

end Sys2Proof

open Sys2Proof Sys2Proof.Machine

/-! ### Encoding (30_encoding.md) -/

/-- Decoding the bytes of a well-formed instruction gives it back, with the bytes after it left over, for all 35
instructions and every operand (R43, R60 to R64). -/
def Obligations.DecodeOfEncodeIsTheInstruction : Prop :=
  ∀ (i : Instr) (rest : List Byte), i.wellFormed = true → decode (encodeBytes i ++ rest) = .ok (i, rest)

/-- The other direction: an instruction that a word decodes to is well formed and encodes to that word, so that no
two words share an instruction and every bit of a word counts (R61, R64, R66). -/
def Obligations.EncodeOfDecodeIsTheWord : Prop :=
  ∀ (op : Word) (i : Instr), decodeWord op = some i → i.wellFormed = true ∧ encode i = op

/-- R64: the table has 35 rows, and a word is the instruction of row `k` if and only if `op & mask = match`. -/
def Obligations.WordIsRowIffMaskMatches : Prop :=
  maskMatch.length = 35 ∧
  ∀ (op : Word) (k : Nat), 1 ≤ k → k ≤ 35 →
    ((∃ i, decodeWord op = some i ∧ i.row = k) ↔ op &&& (rowMaskMatch k).1 = (rowMaskMatch k).2)

/-- R65: the illegal words are exactly the listed ones, and a step that fetches one answers the fault with the word
and leaves the state unchanged. That `pc` is unchanged too is the spec's own reading D17, log entry 8. -/
def Obligations.IllegalWordsFaultUnchanged : Prop :=
  (∀ op : Word, decodeWord op = none ↔ IllegalWord op) ∧
  ∀ s : State, s.Fetches → IllegalWord s.nextWord →
    step s = .fault (.unimplementedOpcode s.nextWord) ∧
    perform .step s = (s, .fault (.unimplementedOpcode s.nextWord))

/-- One word of each format, written out by hand, decodes to the instruction it stands for (R62, R64). -/
def Obligations.SampleWordsDecode : Prop :=
  decodeWord 0x00E0 = some .cls ∧ decodeWord 0x1234 = some (.jp 0x234) ∧
  decodeWord 0x6A7F = some (.ldImm 0xA 0x7F) ∧ decodeWord 0x8124 = some (.addReg 1 2) ∧
  decodeWord 0xD015 = some (.drw 0 1 5) ∧ decodeWord 0xF133 = some (.ldBcd 1) ∧ decodeWord 0x5121 = none

/-- R66, for the two shifts: every value of the field `y` is legal, and all sixteen behave alike. -/
def Obligations.ShiftsIgnoreTheirYField : Prop :=
  ∀ (x y y' : Reg) (s : State),
    decodeWord (wordXY 8 x y 6) = some (.shr x y) ∧ decodeWord (wordXY 8 x y 0xE) = some (.shl x y) ∧
    exec (.shr x y) s = exec (.shr x y') s ∧ exec (.shl x y) s = exec (.shl x y') s

/-! ### The step cycle (40_step_cycle_and_control.md R80, R81) -/

/-- A step runs the decoded instruction: where the machine is not paused and the two bytes at `pc` exist and decode to
`i`, the step is `exec` of `i` with `pc` advanced by 2 and `fb_changed` false. That this holds for an odd `pc` too is the
spec's own decision D5 (20_memory.md R44), log entry 9; the condition on `pc` is its decision D1, log entry 5. -/
def Obligations.StepRunsTheDecodedInstruction : Prop :=
  ∀ (s : State) (i : Instr), s.pause = false → s.pc.toNat ≤ 4094 →
    decode [Memory.read s.mem s.pc.toNat, Memory.read s.mem (s.pc.toNat + 1)] = .ok (i, []) →
    step s = exec i ((s.setPc (s.pc + 2)).setFb false)

/-- R155 and R150: exactly when a step faults, and with which fault, in the order fetch, decode, execute; and that no
step is refused. The address fault of the fetch is the spec's own decision D1 (20_memory.md R42), log entry 5. -/
def Obligations.StepFaultsInPriorityOrder : Prop :=
  ∀ s : State,
    (∀ f : Fault, step s = .fault f ↔
      s.pause = false ∧
        ((s.pc.toNat > 4094 ∧ f = .addressOutOfRange s.pc.toNat) ∨
          (s.pc.toNat ≤ 4094 ∧ decodeWord s.nextWord = none ∧ f = .unimplementedOpcode s.nextWord) ∨
          (∃ i, s.pc.toNat ≤ 4094 ∧ decodeWord s.nextWord = some i ∧ faultIn i s.fetched = some f))) ∧
    ∀ r : Refusal, step s ≠ .refused r

/-- R80's sentences on what no step does: it never changes `pause` or a key, and it changes a timer only by loading it,
`DT` by `Fx15` and `ST` by `Fx18`. -/
def Obligations.StepKeepsKeysAndPauseAndCountsNoTimer : Prop :=
  ∀ s t : State, step s = .next t →
    t.view .pause = s.view .pause ∧ (∀ k, t.view (.key k) = s.view (.key k)) ∧
    (t.view .dt = s.view .dt ∨ ∃ x, s.Runs (.ldDt x) ∧ t.view .dt = s.view (.v x)) ∧
    (t.view .st = s.view .st ∨ ∃ x, s.Runs (.ldSt x) ∧ t.view .st = s.view (.v x))

/-- R132: a step reports `fb_changed = true` if and only if the instruction executed was a `Dxyn` that did not fault;
`reset()` reports nothing. That every other instruction reports false, `00E0` too, is the spec's own reading D20 of
conflict C5 (log entry 8). -/
def Obligations.FbChangedExactlyAfterDraw : Prop :=
  ∀ s : State,
    ((perform .step s).2 = .fbChanged true ↔ ∃ x y n t, s.Runs (.drw x y n) ∧ step s = .next t) ∧
    (perform .reset s).2 = .done

/-! ### Control transfer (40_step_cycle_and_control.md) -/

/-- R82: `0000` is `NOP`, and the only effect of its step is the fetch's `pc <- pc + 2`. -/
def Obligations.NopOnlyAdvancesPc : Prop :=
  decodeWord 0x0000 = some .nop ∧ (∀ s : State, exec .nop s = .next s) ∧
  ∀ s : State, s.Fetches → s.nextWord = 0x0000 →
    ∃ t, step s = .next t ∧ t.view .pc = s.view .pc + 2 ∧ t.fbChanged = false ∧
      OnlyChanges s t fun p => p = .pc ∨ p = .fbChanged

/-- R83 for a stack that is not empty: `RET` completes, `sp` shrinks by one and `pc` is the slot it then names. Which
slot that is rests on the spec's own decision D4, log entry 7. -/
def Obligations.RetPopsTheReturnAddress : Prop :=
  decodeWord 0x00EE = some .ret ∧
  ∀ (s : State) (k : Fin 16), s.view .sp = k.val + 1 →
    ∃ t, exec .ret s = .next t ∧ t.view .sp = k.val ∧ t.view .pc = s.view (.slot k) ∧
      OnlyChanges s t fun p => p = .pc ∨ p = .sp

/-- R84: `JP nnn`. -/
def Obligations.JumpSetsPc : Prop :=
  ∀ nnn : Addr12, decodeWord (wordA 1 nnn) = some (.jp nnn) ∧
    ∀ s : State, ∃ t, exec (.jp nnn) s = .next t ∧ t.view .pc = nnn.toNat ∧ OnlyChanges s t fun p => p = .pc

/-- R85 for a stack that is not full: `CALL nnn` completes, pushes the advanced `pc` and jumps. Which slot a push uses
rests on the spec's own decision D4, log entry 7. -/
def Obligations.CallPushesThePcAndJumps : Prop :=
  ∀ nnn : Addr12, decodeWord (wordA 2 nnn) = some (.call nnn) ∧
    ∀ (s : State) (k : Fin 16), s.view .sp = k.val →
      ∃ t, exec (.call nnn) s = .next t ∧ t.view (.slot k) = s.view .pc ∧ t.view .sp = k.val + 1 ∧
        t.view .pc = nnn.toNat ∧ OnlyChanges s t fun p => p = .pc ∨ p = .sp ∨ p = .slot k

/-- R83 and R85 together: whatever a subroutine does that leaves the stack as the call left it, its `RET` resumes after
the call, with the stack pointer the call found. -/
def Obligations.ReturnResumesAfterTheCall : Prop :=
  ∀ (nnn : Addr12) (s : State), s.view .sp < 16 →
    ∃ t, exec (.call nnn) s = .next t ∧
      ∀ t' : State, t'.stack = t.stack → t'.sp = t.sp →
        ∃ u, exec .ret t' = .next u ∧ u.view .pc = s.view .pc ∧ u.view .sp = s.view .sp

/-- R86 and R87: the skips on an immediate. A skip adds 2 to the 16-bit `pc`. -/
def Obligations.ImmediateSkips : Prop :=
  ∀ (x : Reg) (nn : Byte),
    decodeWord (wordXI 3 x nn) = some (.seImm x nn) ∧ decodeWord (wordXI 4 x nn) = some (.sneImm x nn) ∧
    ∀ s : State,
      (∃ t, exec (.seImm x nn) s = .next t ∧
        t.pc = (if s.view (.v x) = nn.toNat then s.pc + 2 else s.pc) ∧ OnlyChanges s t fun p => p = .pc) ∧
      (∃ t, exec (.sneImm x nn) s = .next t ∧
        t.pc = (if s.view (.v x) ≠ nn.toNat then s.pc + 2 else s.pc) ∧ OnlyChanges s t fun p => p = .pc)

/-- R88 and R89: the skips on two registers. -/
def Obligations.RegisterSkips : Prop :=
  ∀ x y : Reg,
    decodeWord (wordXY 5 x y 0) = some (.seReg x y) ∧ decodeWord (wordXY 9 x y 0) = some (.sneReg x y) ∧
    (∀ n, 1 ≤ n → n ≤ 15 → decodeWord (wordXY 5 x y n) = none ∧ decodeWord (wordXY 9 x y n) = none) ∧
    ∀ s : State,
      (∃ t, exec (.seReg x y) s = .next t ∧
        t.pc = (if s.view (.v x) = s.view (.v y) then s.pc + 2 else s.pc) ∧ OnlyChanges s t fun p => p = .pc) ∧
      (∃ t, exec (.sneReg x y) s = .next t ∧
        t.pc = (if s.view (.v x) ≠ s.view (.v y) then s.pc + 2 else s.pc) ∧ OnlyChanges s t fun p => p = .pc)

/-- R90: `JP V0, nnn`. That the sum is not masked to 12 bits is the spec's own reading ("The source applies no 12-bit
mask [derived]", D21), log entry 8. -/
def Obligations.JumpV0AddsV0 : Prop :=
  ∀ nnn : Addr12, decodeWord (wordA 0xB nnn) = some (.jpV0 nnn) ∧
    ∀ s : State, ∃ t, exec (.jpV0 nnn) s = .next t ∧ t.view .pc = s.view (.v 0) + nnn.toNat ∧
      OnlyChanges s t fun p => p = .pc

/-- R188: a self-jump changes nothing from step to step (but the report of the last step). The convention that it ends
a program is the spec's own decision D16. -/
def Obligations.SelfJumpChangesNothing : Prop :=
  ∀ (s : State) (nnn : Addr12), s.Runs (.jp nnn) → nnn.toNat = s.view .pc →
    ∃ t, step s = .next t ∧ t.fbChanged = false ∧ OnlyChanges s t fun p => p = .fbChanged

/-! ### Register load and ALU (41_load_and_alu.md) -/

/-- R100 and R102: the two loads of a register. -/
def Obligations.RegisterLoads : Prop :=
  ∀ x : Reg,
    (∀ nn : Byte, decodeWord (wordXI 6 x nn) = some (.ldImm x nn) ∧
      ∀ s : State, ∃ t, exec (.ldImm x nn) s = .next t ∧ t.view (.v x) = nn.toNat ∧
        OnlyChanges s t fun p => p = .v x) ∧
    (∀ y : Reg, decodeWord (wordXY 8 x y 0) = some (.ldReg x y) ∧
      ∀ s : State, ∃ t, exec (.ldReg x y) s = .next t ∧ t.view (.v x) = s.view (.v y) ∧
        OnlyChanges s t fun p => p = .v x)

/-- R101: `ADD Vx, nn` wraps and writes no flag. -/
def Obligations.AddImmediateWrapsWithoutFlag : Prop :=
  ∀ (x : Reg) (nn : Byte), decodeWord (wordXI 7 x nn) = some (.addImm x nn) ∧
    ∀ s : State, ∃ t, exec (.addImm x nn) s = .next t ∧
      t.view (.v x) = (s.view (.v x) + nn.toNat) % 256 ∧ OnlyChanges s t fun p => p = .v x

/-- R103 to R105: OR, AND and XOR. That `VF` is left as it was is the spec's own decision D10, log entry 8. -/
def Obligations.LogicOperationsLeaveTheFlag : Prop :=
  ∀ x y : Reg,
    decodeWord (wordXY 8 x y 1) = some (.orReg x y) ∧ decodeWord (wordXY 8 x y 2) = some (.andReg x y) ∧
    decodeWord (wordXY 8 x y 3) = some (.xorReg x y) ∧
    ∀ s : State,
      (∃ t, exec (.orReg x y) s = .next t ∧ t.view (.v x) = s.view (.v x) ||| s.view (.v y) ∧
        OnlyChanges s t fun p => p = .v x) ∧
      (∃ t, exec (.andReg x y) s = .next t ∧ t.view (.v x) = s.view (.v x) &&& s.view (.v y) ∧
        OnlyChanges s t fun p => p = .v x) ∧
      (∃ t, exec (.xorReg x y) s = .next t ∧ t.view (.v x) = s.view (.v x) ^^^ s.view (.v y) ∧
        OnlyChanges s t fun p => p = .v x)

/-- R106: `ADD Vx, Vy`. The flag is written last, so with `x = 15` it replaces the sum. -/
def Obligations.AddSetsSumThenCarry : Prop :=
  ∀ x y : Reg, decodeWord (wordXY 8 x y 4) = some (.addReg x y) ∧
    ∀ s : State, ∃ t, exec (.addReg x y) s = .next t ∧
      (x ≠ VF → t.view (.v x) = (s.view (.v x) + s.view (.v y)) % 256) ∧
      t.view (.v VF) = (if s.view (.v x) + s.view (.v y) > 255 then 1 else 0) ∧
      OnlyChanges s t fun p => p = .v x ∨ p = .v VF

/-- R107 and R109: `SUB` and `SUBN`, the flag 1 for no borrow. -/
def Obligations.SubtractionsSetDifferenceThenNotBorrow : Prop :=
  ∀ x y : Reg,
    decodeWord (wordXY 8 x y 5) = some (.subReg x y) ∧ decodeWord (wordXY 8 x y 7) = some (.subnReg x y) ∧
    ∀ s : State,
      (∃ t, exec (.subReg x y) s = .next t ∧
        (x ≠ VF → (t.view (.v x) : Int) = ((s.view (.v x) : Int) - s.view (.v y)) % 256) ∧
        t.view (.v VF) = (if s.view (.v x) < s.view (.v y) then 0 else 1) ∧
        OnlyChanges s t fun p => p = .v x ∨ p = .v VF) ∧
      (∃ t, exec (.subnReg x y) s = .next t ∧
        (x ≠ VF → (t.view (.v x) : Int) = ((s.view (.v y) : Int) - s.view (.v x)) % 256) ∧
        t.view (.v VF) = (if s.view (.v y) < s.view (.v x) then 0 else 1) ∧
        OnlyChanges s t fun p => p = .v x ∨ p = .v VF)

/-- R108 and R110: the shifts by one place. That with `x = 15` the flag survives is the spec's own reading (C1 of
90_conflicts.md, D19), log entry 8. -/
def Obligations.ShiftsSetResultThenShiftedOutBit : Prop :=
  ∀ (x y : Reg) (s : State),
    (∃ t, exec (.shr x y) s = .next t ∧ (x ≠ VF → t.view (.v x) = s.view (.v x) / 2) ∧
      t.view (.v VF) = s.view (.v x) % 2 ∧ OnlyChanges s t fun p => p = .v x ∨ p = .v VF) ∧
    (∃ t, exec (.shl x y) s = .next t ∧ (x ≠ VF → t.view (.v x) = 2 * s.view (.v x) % 256) ∧
      t.view (.v VF) = s.view (.v x) / 128 % 2 ∧ OnlyChanges s t fun p => p = .v x ∨ p = .v VF)

/-! ### Index register and memory (42_index_and_memory.md) -/

/-- R120: `LD I, nnn`. -/
def Obligations.LoadIndexSetsI : Prop :=
  ∀ nnn : Addr12, decodeWord (wordA 0xA nnn) = some (.ldIndex nnn) ∧
    ∀ s : State, ∃ t, exec (.ldIndex nnn) s = .next t ∧ t.view .index = nnn.toNat ∧
      OnlyChanges s t fun p => p = .index

/-- R121: `ADD I, Vx`. That it wraps at 16 bits and leaves `VF` alone are the spec's own readings (D10, D21), log
entry 8. -/
def Obligations.AddIndexWrapsAtSixteenBits : Prop :=
  ∀ x : Reg, decodeWord (wordX 0xF x 0x1E) = some (.addIndex x) ∧
    ∀ s : State, ∃ t, exec (.addIndex x) s = .next t ∧
      t.view .index = (s.view .index + s.view (.v x)) % 65536 ∧ OnlyChanges s t fun p => p = .index

/-- R122: `LD F, Vx`. That the whole byte is multiplied, not masked to a digit, is the spec's own reading (D21), log
entry 8. -/
def Obligations.FontAddressIsFiveTimesVx : Prop :=
  ∀ x : Reg, decodeWord (wordX 0xF x 0x29) = some (.ldFont x) ∧
    ∀ s : State, ∃ t, exec (.ldFont x) s = .next t ∧ t.view .index = s.view (.v x) * 5 ∧
      OnlyChanges s t fun p => p = .index

/-- R123 where the three bytes exist: `LD B, Vx` completes and stores the digits, and every other byte of memory and `I`
are as before. The condition is the spec's own decision D1, log entry 5. -/
def Obligations.BcdStoresThreeDigits : Prop :=
  ∀ x : Reg, decodeWord (wordX 0xF x 0x33) = some (.ldBcd x) ∧
    ∀ s : State, s.view .index + 2 ≤ 4095 →
      ∃ t, exec (.ldBcd x) s = .next t ∧
        t.view (.mem (baseAddr s)) = s.view (.v x) / 100 ∧
        t.view (.mem (baseAddr s + 1)) = s.view (.v x) / 10 % 10 ∧
        t.view (.mem (baseAddr s + 2)) = s.view (.v x) % 10 ∧
        OnlyChanges s t fun p => ∃ k, k < 3 ∧ p = .mem (baseAddr s + k)

/-- R124 where the bytes exist: `LD [I], Vx` completes and stores `V[0]` to `V[x]`, and every other byte of memory and
`I` are as before. The condition is the spec's own decision D1 (log entry 5); that `I` is unchanged is D9 (log
entry 8). -/
def Obligations.StoreRegistersWritesTheBlock : Prop :=
  ∀ x : Reg, decodeWord (wordX 0xF x 0x55) = some (.storeRegs x) ∧
    ∀ s : State, s.view .index + x.val ≤ 4095 →
      ∃ t, exec (.storeRegs x) s = .next t ∧
        (∀ k : Reg, k ≤ x → t.view (.mem (baseAddr s + k.val)) = s.view (.v k)) ∧
        OnlyChanges s t fun p => ∃ k, k ≤ x.val ∧ p = .mem (baseAddr s + k)

/-- R125 where the bytes exist: `LD Vx, [I]` completes and loads `V[0]` to `V[x]`; memory, `I` and the higher registers
are as before. The condition is the spec's own decision D1 (log entry 5); that `I` is unchanged is D9 (log
entry 8). -/
def Obligations.LoadRegistersReadsTheBlock : Prop :=
  ∀ x : Reg, decodeWord (wordX 0xF x 0x65) = some (.loadRegs x) ∧
    ∀ s : State, s.view .index + x.val ≤ 4095 →
      ∃ t, exec (.loadRegs x) s = .next t ∧
        (∀ k : Reg, k ≤ x → t.view (.v k) = s.view (.mem (baseAddr s + k.val))) ∧
        OnlyChanges s t fun p => ∃ k : Reg, k ≤ x ∧ p = .v k

/-- R124 and R125 together: a block stored and then loaded at the same `I`, whatever happened to the registers in
between, restores them. The condition is the spec's own decision D1 (log entry 5); that a block transfer leaves `I`
alone is D9 (log entry 8). -/
def Obligations.StoreThenLoadRestoresRegisters : Prop :=
  ∀ (x : Reg) (s : State), s.view .index + x.val ≤ 4095 →
    ∃ t, exec (.storeRegs x) s = .next t ∧
      ∀ t' : State, t'.mem = t.mem → t'.index = s.index →
        ∃ u, exec (.loadRegs x) t' = .next u ∧ ∀ k : Reg, k ≤ x → u.view (.v k) = s.view (.v k)

/-- R50: a store over the next instruction is what the very next step executes. The condition on the
address is the spec's own decision D1, log entry 5. -/
def Obligations.StoreIsSeenByTheNextFetch : Prop :=
  ∀ (s : State) (x : Reg) (i : Instr), s.Runs (.storeRegs x) → 1 ≤ x.val →
    s.view .index = s.view .pc + 2 → s.view .index + x.val ≤ 4095 →
    decodeWord (assemble (s.reg 0) (s.reg 1)) = some i →
    ∃ t, step s = .next t ∧ step t = exec i ((t.setPc (t.pc + 2)).setFb false)

/-! ### Display (43_display.md) -/

/-- R130: `CLS` clears every pixel, `VF` and everything else as before. That it leaves `fb_changed` alone is the
spec's own reading D20 of conflict C5 (log entry 8). -/
def Obligations.ClsClearsEveryPixel : Prop :=
  decodeWord 0x00E0 = some .cls ∧
  ∀ s : State, ∃ t, exec .cls s = .next t ∧ (∀ r c, t.view (.pixel r c) = 0) ∧
    t.fbChanged = s.fbChanged ∧ OnlyChanges s t fun p => ∃ r c, p = .pixel r c

/-- R131 where the sprite's rows exist (or `n = 0`): `DRW` completes; each pixel that a set sprite bit hits flips and no
other pixel changes; `VF` is 1 exactly if a pixel that was set was hit; `fb_changed` is true. The condition on the address is
the spec's own decision D1 (log entry 5); that the position is that of the old `V[x]` and `V[y]`, for register 15
too, is its reading D24, and that the sprite is the `n` bytes from `I` on its resolution of conflict C7 (log
entry 8). -/
def Obligations.DrawXorsTheSpriteAndReportsCollision : Prop :=
  ∀ (x y : Reg) (n : Nat), n ≤ 15 → decodeWord (wordXY 0xD x y n) = some (.drw x y n) ∧
    ∀ s : State, (n = 0 ∨ s.view .index + n - 1 ≤ 4095) →
      ∃ t, exec (.drw x y n) s = .next t ∧
        (∀ r c, SpriteSets s x y n r c → t.view (.pixel r c) = 1 - s.view (.pixel r c)) ∧
        (∀ r c, ¬ SpriteSets s x y n r c → t.view (.pixel r c) = s.view (.pixel r c)) ∧
        ((∃ r c, SpriteSets s x y n r c ∧ s.view (.pixel r c) = 1) → t.view (.v VF) = 1) ∧
        ((∀ r c, SpriteSets s x y n r c → s.view (.pixel r c) = 0) → t.view (.v VF) = 0) ∧
        t.fbChanged = true ∧
        OnlyChanges s t fun p => (∃ r c, p = .pixel r c) ∨ p = .v VF ∨ p = .fbChanged

/-- The source's property in R131: drawing the same sprite twice at the same coordinates restores the pixels, whatever
was there before. With `x` or `y` 15 the second position would be the first flag, so those are left to the statement
above. The condition on the address is the spec's own decision D1 (log entry 5), with the `n` bytes of conflict C7
(log entry 8). -/
def Obligations.DrawingTwiceRestoresTheDisplay : Prop :=
  ∀ (x y : Reg) (n : Nat) (s : State), n ≤ 15 → x ≠ VF → y ≠ VF → (n = 0 ∨ s.view .index + n - 1 ≤ 4095) →
    ∃ t u, exec (.drw x y n) s = .next t ∧ exec (.drw x y n) t = .next u ∧ u.disp = s.disp

/-! ### Random, keypad, timers (44_keypad_timer_random.md) -/

/-- R140: `RND` stores the step's random byte masked by `nn` and consumes one byte. The byte is a free value
(`Config.randomByte`, no body) and the counter that names it is the model's own, log entry 1. -/
def Obligations.RandomByteIsMasked : Prop :=
  ∀ (x : Reg) (nn : Byte), decodeWord (wordXI 0xC x nn) = some (.rnd x nn) ∧
    ∀ s : State, ∃ t, exec (.rnd x nn) s = .next t ∧ t.reg x = Config.randomByte s.draws &&& nn ∧
      t.reg x &&& ~~~nn = 0 ∧ t.view .draws = s.view .draws + 1 ∧
      OnlyChanges s t fun p => p = .v x ∨ p = .draws

/-- R141 and R142 for a key number that exists: the skips on a key complete and read the key's level. The condition is
the spec's own decision D2, log entry 5. -/
def Obligations.KeySkipsReadTheKeyLevel : Prop :=
  ∀ x : Reg, decodeWord (wordX 0xE x 0x9E) = some (.skp x) ∧ decodeWord (wordX 0xE x 0xA1) = some (.sknp x) ∧
    ∀ (s : State) (k : Key), s.view (.v x) = k.val →
      (∃ t, exec (.skp x) s = .next t ∧ t.pc = (if s.view (.key k) = 1 then s.pc + 2 else s.pc) ∧
        OnlyChanges s t fun p => p = .pc) ∧
      (∃ t, exec (.sknp x) s = .next t ∧ t.pc = (if s.view (.key k) = 0 then s.pc + 2 else s.pc) ∧
        OnlyChanges s t fun p => p = .pc)

/-- R144: with a key pressed, `V[x]` is the lowest-numbered pressed one; with none, `pc` goes back by 2, so that the
whole step changes nothing. -/
def Obligations.KeyWaitTakesLowestKeyOrRewinds : Prop :=
  ∀ x : Reg, decodeWord (wordX 0xF x 0x0A) = some (.ldKey x) ∧
    (∀ (s : State) (k : Key), s.view (.key k) = 1 → (∀ j : Key, j < k → s.view (.key j) = 0) →
      ∃ t, exec (.ldKey x) s = .next t ∧ t.view (.v x) = k.val ∧ OnlyChanges s t fun p => p = .v x) ∧
    (∀ s : State, (∀ k : Key, s.view (.key k) = 0) →
      ∃ t, exec (.ldKey x) s = .next t ∧ t.pc = s.pc - 2 ∧ OnlyChanges s t fun p => p = .pc) ∧
    (∀ s : State, s.Runs (.ldKey x) → (∀ k : Key, s.view (.key k) = 0) →
      ∃ t, step s = .next t ∧ t.fbChanged = false ∧ OnlyChanges s t fun p => p = .fbChanged)

/-- R143, R145, R146: the transfers between a register and a timer. -/
def Obligations.TimerTransfers : Prop :=
  ∀ x : Reg,
    decodeWord (wordX 0xF x 0x07) = some (.ldFromDt x) ∧ decodeWord (wordX 0xF x 0x15) = some (.ldDt x) ∧
    decodeWord (wordX 0xF x 0x18) = some (.ldSt x) ∧
    ∀ s : State,
      (∃ t, exec (.ldFromDt x) s = .next t ∧ t.view (.v x) = s.view .dt ∧ OnlyChanges s t fun p => p = .v x) ∧
      (∃ t, exec (.ldDt x) s = .next t ∧ t.view .dt = s.view (.v x) ∧ OnlyChanges s t fun p => p = .dt) ∧
      (∃ t, exec (.ldSt x) s = .next t ∧ t.view .st = s.view (.v x) ∧ OnlyChanges s t fun p => p = .st)

/-! ### Faults, frames, what is not read -/

/-- R150: exactly when each of the 35 instructions faults and with which fault, and that it completes otherwise. The
address and key faults are the spec's own decisions D1 and D2, log entry 5. -/
def Obligations.InstructionsFaultExactlyAsListed : Prop :=
  ∀ (i : Instr) (s : State),
    (∀ f : Fault, exec i s = .fault f ↔ faultIn i s = some f) ∧
    (faultIn i s = none → ∃ t, exec i s = .next t)

/-- R151, with R150's list of the operations that can fault: an operation that faults leaves the whole state as it was,
so that the same operation faults again. That the advance of `pc` is undone is the spec's own reading D17, log
entry 8. -/
def Obligations.FaultingOperationLeavesTheState : Prop :=
  ∀ (o : Operation) (s : State) (f : Fault), (perform o s).2 = .fault f →
    (perform o s).1 = s ∧ perform o (perform o s).1 = perform o s ∧
    (o = .step ∨ ∃ bytes, o = .load bytes)

/-- R34's summary of who writes what, as one frame for all 35 instructions: an instruction that completes changes no part
of the state but those `Writes` lists for it. The stack slot of `CALL` and the pixels under a sprite are those of R25,
R85 and R131. That `CALL` writes the slot `sp` names and `RET` none is the spec's own decision D4 (log entry 7); that
the block transfers keep `I`, that logic, `7xnn` and `Fx1E` keep `VF`, and that `CLS` keeps `fb_changed` are its readings
D9, D10 and D20, and that a sprite has `n` rows is its resolution of conflict C7 (log entry 8). The parts `fbChanged`
(log entry 3) and `draws` (log entry 1) are the model's own. -/
def Obligations.InstructionsWriteOnlyTheirParts : Prop :=
  ∀ (i : Instr) (s t : State), exec i s = .next t → OnlyChanges s t (Writes i s)

/-- "No instruction reads `ST`" (10_state.md R26): an instruction other than the one that loads it does the same whatever
`ST` holds, and keeps it. -/
def Obligations.SoundTimerIsNeverRead : Prop :=
  ∀ (i : Instr) (s : State) (b : Byte), (∀ x, i ≠ .ldSt x) →
    exec i (s.setSt b) =
      match exec i s with
      | .next t => .next (t.setSt b)
      | .fault f => .fault f
      | .refused r => .refused r

/-- The parts are the whole state (R20, R31: there is no hidden state): two states whose memories are in the model's
canonical form (log entry 11) and which agree on every part are equal. -/
def Obligations.PartsDetermineTheState : Prop :=
  ∀ s t : State, Memory.wf s.mem → Memory.wf t.mem → (∀ p, s.view p = t.view p) → s = t

/-! ### Reset, host operations (60_exceptions.md, 70_reset_and_hazards.md) -/

/-- R32: the initial condition, part by part, for every font. The key states are the spec's own decision D8, log
entry 6. -/
def Obligations.ResetStateIsTheInitialCondition : Prop :=
  (∀ a : Nat, State.reset.view (.mem a) = if h : a < 80 then (Config.font ⟨a, h⟩).toNat else 0) ∧
  (∀ k, State.reset.view (.v k) = 0) ∧ State.reset.view .index = 0 ∧ State.reset.view .pc = 0x200 ∧
  (∀ k, State.reset.view (.slot k) = 0) ∧ State.reset.view .sp = 0 ∧
  State.reset.view .dt = 0 ∧ State.reset.view .st = 0 ∧ (∀ r c, State.reset.view (.pixel r c) = 0) ∧
  (∀ k, State.reset.view (.key k) = 0) ∧ State.reset.view .pause = 0

/-- R180 and R181: `create()` and `reset()` give the initial condition in every entity, twice is the same as once, and
nothing is reported. That a loaded ROM is erased and the keys released are the spec's own readings D22 and D8 (log
entries 6 and 8); that the count of random bytes goes on is the model's choice, log entry 1. -/
def Obligations.ResetOperationRestoresTheInitialCondition : Prop :=
  ∀ s : State,
    (∀ p, p ≠ .draws → (perform .reset s).1.view p = State.reset.view p) ∧
    (perform .reset s).1.view .draws = s.view .draws ∧
    perform .create s = perform .reset s ∧
    perform .reset (perform .reset s).1 = perform .reset s ∧ (perform .reset s).2 = .done

/-- R182: `load` copies the bytes to 0x200 on and changes nothing else, at every length up to 3584; a longer ROM is
rejected and the state unchanged. That it changes nothing else is the spec's own reading D18 (log entry 8). -/
def Obligations.LoadCopiesTheRomOrRejectsIt : Prop :=
  ∀ (bytes : List Byte) (s : State),
    (bytes.length ≤ 3584 →
      ∃ t, perform (.load bytes) s = (t, .done) ∧
        (∀ k, k < bytes.length → t.view (.mem (0x200 + k)) = (bytes.getD k 0).toNat) ∧
        OnlyChanges s t fun p => ∃ k, k < bytes.length ∧ p = .mem (0x200 + k)) ∧
    (bytes.length > 3584 → perform (.load bytes) s = (s, .fault (.romTooLarge bytes.length)))

/-- R159: `tick_timers()`. -/
def Obligations.TickCountsBothTimersDown : Prop :=
  ∀ s : State,
    (s.pause = true → perform .tickTimers s = (s, .beep false)) ∧
    (s.pause = false →
      ∃ t, perform .tickTimers s = (t, .beep (decide (s.view .st = 1))) ∧
        t.view .dt = (if s.view .dt > 0 then s.view .dt - 1 else 0) ∧
        t.view .st = (if s.view .st > 0 then s.view .st - 1 else 0) ∧
        OnlyChanges s t fun p => p = .dt ∨ p = .st)

/-- R160: `set_key`. That it works while the machine is paused is the spec's own reading D23 (10_state.md R29),
log entry 8. -/
def Obligations.SetKeyChangesOneKey : Prop :=
  ∀ (k : Key) (pressed : Bool) (s : State),
    ∃ t, perform (.setKey k pressed) s = (t, .done) ∧ t.view (.key k) = pressed.toNat ∧
      OnlyChanges s t fun p => p = .key k

/-- R161: `display()` returns the bitmap as it is and changes nothing. -/
def Obligations.DisplayReturnsTheBitmap : Prop :=
  ∀ s : State, ∃ d, perform .display s = (s, .bitmap d) ∧
    ∀ r c, (Bitmap.pixel d r c).toNat = s.view (.pixel r c)

/-- R162: the host reads and writes `pause`, the write changes nothing else; while it is set `step()` and
`tick_timers()` report false and change nothing; `reset()` clears it. -/
def Obligations.PauseGatesStepAndTick : Prop :=
  ∀ s : State,
    perform .readPause s = (s, .paused s.pause) ∧
    (∀ b : Bool, ∃ t, perform (.writePause b) s = (t, .done) ∧ t.view .pause = b.toNat ∧
      OnlyChanges s t fun p => p = .pause) ∧
    (s.pause = true →
      (perform .step s).2 = .fbChanged false ∧ OnlyChanges s (perform .step s).1 (fun p => p = .fbChanged) ∧
      perform .tickTimers s = (s, .beep false)) ∧
    (perform .reset s).1.pause = false

/-- R189: a machine stepped from the initial condition with no ROM loaded takes 1792 steps that change `pc` alone, and
the next one faults with the address 4096. The fault is the spec's own decision D1, log entry 5. -/
def Obligations.EmptyMachineRunsToTheEndOfMemory : Prop :=
  State.SafeFor 1792 State.reset ∧
  ∃ t, t = performAll (List.replicate 1792 .step) State.reset ∧ t.view .pc = 4096 ∧
    (OnlyChanges State.reset t fun p => p = .pc) ∧ step t = .fault (.addressOutOfRange 4096)

/-! ### The invariant of reachable states (10_state.md R33) -/

/-- The invariant holds at reset. Its clause on the canonical form of memory is the model's own, log entry 11. -/
def Obligations.ResetMeetsTheInvariant : Prop := State.reset.Inv

/-- Every step keeps the invariant, from every state that meets it: memory in canonical form, `pc` in 0..4350, held
return addresses in 2..4096. The canonical form is the model's own, log entry 11. -/
def Obligations.StepKeepsTheInvariant : Prop :=
  ∀ s t : State, s.Inv → step s = .next t → t.Inv

/-- Every operation of the host keeps the invariant too, faulting ones included. The bounds are R33's; the canonical
form of memory in the invariant is the model's own, log entry 11. -/
def Obligations.EveryOperationKeepsTheInvariant : Prop :=
  ∀ (o : Operation) (s : State), s.Inv → (perform o s).1.Inv

/-- R33: in every state a host can reach from the initial condition, by any schedule of operations with any ROM, the
invariant holds; so a step that faults at its fetch has `pc` in 4095..4350. The bounds are R33's; the canonical form of
memory in the invariant is the model's own (log entry 11), and the address fault with the address it carries is the
spec's own decision D1 (log entry 5). -/
def Obligations.ReachableStatesMeetTheBounds : Prop :=
  ∀ s : State, s.Reachable →
    s.Inv ∧ ∀ a, step s = .fault (.addressOutOfRange a) → 4095 ≤ a ∧ (a = s.view .pc → a ≤ 4350)
end

