-- ==== Sys2Proof/Laws/State.lean ====
section
/-! SUPPORT. What each update of `State` does to each field: one lemma per field per update, so that no proof
unfolds a record update. -/

namespace Sys2Proof.Machine

variable (s : State)

/-! `setV` -/

@[simp] theorem State.setV_mem (k : Reg) (b : Byte) : (s.setV k b).mem = s.mem := rfl
@[simp] theorem State.setV_v (k : Reg) (b : Byte) : (s.setV k b).v = s.v.set k.val b := rfl
@[simp] theorem State.setV_index (k : Reg) (b : Byte) : (s.setV k b).index = s.index := rfl
@[simp] theorem State.setV_pc (k : Reg) (b : Byte) : (s.setV k b).pc = s.pc := rfl
@[simp] theorem State.setV_stack (k : Reg) (b : Byte) : (s.setV k b).stack = s.stack := rfl
@[simp] theorem State.setV_sp (k : Reg) (b : Byte) : (s.setV k b).sp = s.sp := rfl
@[simp] theorem State.setV_dt (k : Reg) (b : Byte) : (s.setV k b).dt = s.dt := rfl
@[simp] theorem State.setV_st (k : Reg) (b : Byte) : (s.setV k b).st = s.st := rfl
@[simp] theorem State.setV_disp (k : Reg) (b : Byte) : (s.setV k b).disp = s.disp := rfl
@[simp] theorem State.setV_key (k : Reg) (b : Byte) : (s.setV k b).key = s.key := rfl
@[simp] theorem State.setV_pause (k : Reg) (b : Byte) : (s.setV k b).pause = s.pause := rfl
@[simp] theorem State.setV_fbChanged (k : Reg) (b : Byte) : (s.setV k b).fbChanged = s.fbChanged := rfl
@[simp] theorem State.setV_draws (k : Reg) (b : Byte) : (s.setV k b).draws = s.draws := rfl

/-! `setVs` -/

@[simp] theorem State.setVs_mem (w : Vector Byte 16) : (s.setVs w).mem = s.mem := rfl
@[simp] theorem State.setVs_v (w : Vector Byte 16) : (s.setVs w).v = w := rfl
@[simp] theorem State.setVs_index (w : Vector Byte 16) : (s.setVs w).index = s.index := rfl
@[simp] theorem State.setVs_pc (w : Vector Byte 16) : (s.setVs w).pc = s.pc := rfl
@[simp] theorem State.setVs_stack (w : Vector Byte 16) : (s.setVs w).stack = s.stack := rfl
@[simp] theorem State.setVs_sp (w : Vector Byte 16) : (s.setVs w).sp = s.sp := rfl
@[simp] theorem State.setVs_dt (w : Vector Byte 16) : (s.setVs w).dt = s.dt := rfl
@[simp] theorem State.setVs_st (w : Vector Byte 16) : (s.setVs w).st = s.st := rfl
@[simp] theorem State.setVs_disp (w : Vector Byte 16) : (s.setVs w).disp = s.disp := rfl
@[simp] theorem State.setVs_key (w : Vector Byte 16) : (s.setVs w).key = s.key := rfl
@[simp] theorem State.setVs_pause (w : Vector Byte 16) : (s.setVs w).pause = s.pause := rfl
@[simp] theorem State.setVs_fbChanged (w : Vector Byte 16) : (s.setVs w).fbChanged = s.fbChanged := rfl
@[simp] theorem State.setVs_draws (w : Vector Byte 16) : (s.setVs w).draws = s.draws := rfl

/-! `setIndex` -/

@[simp] theorem State.setIndex_mem (w : Word) : (s.setIndex w).mem = s.mem := rfl
@[simp] theorem State.setIndex_v (w : Word) : (s.setIndex w).v = s.v := rfl
@[simp] theorem State.setIndex_index (w : Word) : (s.setIndex w).index = w := rfl
@[simp] theorem State.setIndex_pc (w : Word) : (s.setIndex w).pc = s.pc := rfl
@[simp] theorem State.setIndex_stack (w : Word) : (s.setIndex w).stack = s.stack := rfl
@[simp] theorem State.setIndex_sp (w : Word) : (s.setIndex w).sp = s.sp := rfl
@[simp] theorem State.setIndex_dt (w : Word) : (s.setIndex w).dt = s.dt := rfl
@[simp] theorem State.setIndex_st (w : Word) : (s.setIndex w).st = s.st := rfl
@[simp] theorem State.setIndex_disp (w : Word) : (s.setIndex w).disp = s.disp := rfl
@[simp] theorem State.setIndex_key (w : Word) : (s.setIndex w).key = s.key := rfl
@[simp] theorem State.setIndex_pause (w : Word) : (s.setIndex w).pause = s.pause := rfl
@[simp] theorem State.setIndex_fbChanged (w : Word) : (s.setIndex w).fbChanged = s.fbChanged := rfl
@[simp] theorem State.setIndex_draws (w : Word) : (s.setIndex w).draws = s.draws := rfl

/-! `setPc` -/

@[simp] theorem State.setPc_mem (w : Word) : (s.setPc w).mem = s.mem := rfl
@[simp] theorem State.setPc_v (w : Word) : (s.setPc w).v = s.v := rfl
@[simp] theorem State.setPc_index (w : Word) : (s.setPc w).index = s.index := rfl
@[simp] theorem State.setPc_pc (w : Word) : (s.setPc w).pc = w := rfl
@[simp] theorem State.setPc_stack (w : Word) : (s.setPc w).stack = s.stack := rfl
@[simp] theorem State.setPc_sp (w : Word) : (s.setPc w).sp = s.sp := rfl
@[simp] theorem State.setPc_dt (w : Word) : (s.setPc w).dt = s.dt := rfl
@[simp] theorem State.setPc_st (w : Word) : (s.setPc w).st = s.st := rfl
@[simp] theorem State.setPc_disp (w : Word) : (s.setPc w).disp = s.disp := rfl
@[simp] theorem State.setPc_key (w : Word) : (s.setPc w).key = s.key := rfl
@[simp] theorem State.setPc_pause (w : Word) : (s.setPc w).pause = s.pause := rfl
@[simp] theorem State.setPc_fbChanged (w : Word) : (s.setPc w).fbChanged = s.fbChanged := rfl
@[simp] theorem State.setPc_draws (w : Word) : (s.setPc w).draws = s.draws := rfl

/-! `setStack` -/

@[simp] theorem State.setStack_mem (w : Vector Word 16) : (s.setStack w).mem = s.mem := rfl
@[simp] theorem State.setStack_v (w : Vector Word 16) : (s.setStack w).v = s.v := rfl
@[simp] theorem State.setStack_index (w : Vector Word 16) : (s.setStack w).index = s.index := rfl
@[simp] theorem State.setStack_pc (w : Vector Word 16) : (s.setStack w).pc = s.pc := rfl
@[simp] theorem State.setStack_stack (w : Vector Word 16) : (s.setStack w).stack = w := rfl
@[simp] theorem State.setStack_sp (w : Vector Word 16) : (s.setStack w).sp = s.sp := rfl
@[simp] theorem State.setStack_dt (w : Vector Word 16) : (s.setStack w).dt = s.dt := rfl
@[simp] theorem State.setStack_st (w : Vector Word 16) : (s.setStack w).st = s.st := rfl
@[simp] theorem State.setStack_disp (w : Vector Word 16) : (s.setStack w).disp = s.disp := rfl
@[simp] theorem State.setStack_key (w : Vector Word 16) : (s.setStack w).key = s.key := rfl
@[simp] theorem State.setStack_pause (w : Vector Word 16) : (s.setStack w).pause = s.pause := rfl
@[simp] theorem State.setStack_fbChanged (w : Vector Word 16) : (s.setStack w).fbChanged = s.fbChanged := rfl
@[simp] theorem State.setStack_draws (w : Vector Word 16) : (s.setStack w).draws = s.draws := rfl

/-! `setSp` -/

@[simp] theorem State.setSp_mem (n : Fin 17) : (s.setSp n).mem = s.mem := rfl
@[simp] theorem State.setSp_v (n : Fin 17) : (s.setSp n).v = s.v := rfl
@[simp] theorem State.setSp_index (n : Fin 17) : (s.setSp n).index = s.index := rfl
@[simp] theorem State.setSp_pc (n : Fin 17) : (s.setSp n).pc = s.pc := rfl
@[simp] theorem State.setSp_stack (n : Fin 17) : (s.setSp n).stack = s.stack := rfl
@[simp] theorem State.setSp_sp (n : Fin 17) : (s.setSp n).sp = n := rfl
@[simp] theorem State.setSp_dt (n : Fin 17) : (s.setSp n).dt = s.dt := rfl
@[simp] theorem State.setSp_st (n : Fin 17) : (s.setSp n).st = s.st := rfl
@[simp] theorem State.setSp_disp (n : Fin 17) : (s.setSp n).disp = s.disp := rfl
@[simp] theorem State.setSp_key (n : Fin 17) : (s.setSp n).key = s.key := rfl
@[simp] theorem State.setSp_pause (n : Fin 17) : (s.setSp n).pause = s.pause := rfl
@[simp] theorem State.setSp_fbChanged (n : Fin 17) : (s.setSp n).fbChanged = s.fbChanged := rfl
@[simp] theorem State.setSp_draws (n : Fin 17) : (s.setSp n).draws = s.draws := rfl

/-! `setDt` -/

@[simp] theorem State.setDt_mem (b : Byte) : (s.setDt b).mem = s.mem := rfl
@[simp] theorem State.setDt_v (b : Byte) : (s.setDt b).v = s.v := rfl
@[simp] theorem State.setDt_index (b : Byte) : (s.setDt b).index = s.index := rfl
@[simp] theorem State.setDt_pc (b : Byte) : (s.setDt b).pc = s.pc := rfl
@[simp] theorem State.setDt_stack (b : Byte) : (s.setDt b).stack = s.stack := rfl
@[simp] theorem State.setDt_sp (b : Byte) : (s.setDt b).sp = s.sp := rfl
@[simp] theorem State.setDt_dt (b : Byte) : (s.setDt b).dt = b := rfl
@[simp] theorem State.setDt_st (b : Byte) : (s.setDt b).st = s.st := rfl
@[simp] theorem State.setDt_disp (b : Byte) : (s.setDt b).disp = s.disp := rfl
@[simp] theorem State.setDt_key (b : Byte) : (s.setDt b).key = s.key := rfl
@[simp] theorem State.setDt_pause (b : Byte) : (s.setDt b).pause = s.pause := rfl
@[simp] theorem State.setDt_fbChanged (b : Byte) : (s.setDt b).fbChanged = s.fbChanged := rfl
@[simp] theorem State.setDt_draws (b : Byte) : (s.setDt b).draws = s.draws := rfl

/-! `setSt` -/

@[simp] theorem State.setSt_mem (b : Byte) : (s.setSt b).mem = s.mem := rfl
@[simp] theorem State.setSt_v (b : Byte) : (s.setSt b).v = s.v := rfl
@[simp] theorem State.setSt_index (b : Byte) : (s.setSt b).index = s.index := rfl
@[simp] theorem State.setSt_pc (b : Byte) : (s.setSt b).pc = s.pc := rfl
@[simp] theorem State.setSt_stack (b : Byte) : (s.setSt b).stack = s.stack := rfl
@[simp] theorem State.setSt_sp (b : Byte) : (s.setSt b).sp = s.sp := rfl
@[simp] theorem State.setSt_dt (b : Byte) : (s.setSt b).dt = s.dt := rfl
@[simp] theorem State.setSt_st (b : Byte) : (s.setSt b).st = b := rfl
@[simp] theorem State.setSt_disp (b : Byte) : (s.setSt b).disp = s.disp := rfl
@[simp] theorem State.setSt_key (b : Byte) : (s.setSt b).key = s.key := rfl
@[simp] theorem State.setSt_pause (b : Byte) : (s.setSt b).pause = s.pause := rfl
@[simp] theorem State.setSt_fbChanged (b : Byte) : (s.setSt b).fbChanged = s.fbChanged := rfl
@[simp] theorem State.setSt_draws (b : Byte) : (s.setSt b).draws = s.draws := rfl

/-! `setDisp` -/

@[simp] theorem State.setDisp_mem (d : Bitmap) : (s.setDisp d).mem = s.mem := rfl
@[simp] theorem State.setDisp_v (d : Bitmap) : (s.setDisp d).v = s.v := rfl
@[simp] theorem State.setDisp_index (d : Bitmap) : (s.setDisp d).index = s.index := rfl
@[simp] theorem State.setDisp_pc (d : Bitmap) : (s.setDisp d).pc = s.pc := rfl
@[simp] theorem State.setDisp_stack (d : Bitmap) : (s.setDisp d).stack = s.stack := rfl
@[simp] theorem State.setDisp_sp (d : Bitmap) : (s.setDisp d).sp = s.sp := rfl
@[simp] theorem State.setDisp_dt (d : Bitmap) : (s.setDisp d).dt = s.dt := rfl
@[simp] theorem State.setDisp_st (d : Bitmap) : (s.setDisp d).st = s.st := rfl
@[simp] theorem State.setDisp_disp (d : Bitmap) : (s.setDisp d).disp = d := rfl
@[simp] theorem State.setDisp_key (d : Bitmap) : (s.setDisp d).key = s.key := rfl
@[simp] theorem State.setDisp_pause (d : Bitmap) : (s.setDisp d).pause = s.pause := rfl
@[simp] theorem State.setDisp_fbChanged (d : Bitmap) : (s.setDisp d).fbChanged = s.fbChanged := rfl
@[simp] theorem State.setDisp_draws (d : Bitmap) : (s.setDisp d).draws = s.draws := rfl

/-! `setKey` -/

@[simp] theorem State.setKey_mem (k : Key) (b : Bool) : (s.setKey k b).mem = s.mem := rfl
@[simp] theorem State.setKey_v (k : Key) (b : Bool) : (s.setKey k b).v = s.v := rfl
@[simp] theorem State.setKey_index (k : Key) (b : Bool) : (s.setKey k b).index = s.index := rfl
@[simp] theorem State.setKey_pc (k : Key) (b : Bool) : (s.setKey k b).pc = s.pc := rfl
@[simp] theorem State.setKey_stack (k : Key) (b : Bool) : (s.setKey k b).stack = s.stack := rfl
@[simp] theorem State.setKey_sp (k : Key) (b : Bool) : (s.setKey k b).sp = s.sp := rfl
@[simp] theorem State.setKey_dt (k : Key) (b : Bool) : (s.setKey k b).dt = s.dt := rfl
@[simp] theorem State.setKey_st (k : Key) (b : Bool) : (s.setKey k b).st = s.st := rfl
@[simp] theorem State.setKey_disp (k : Key) (b : Bool) : (s.setKey k b).disp = s.disp := rfl
@[simp] theorem State.setKey_key (k : Key) (b : Bool) : (s.setKey k b).key = s.key.set k.val b := rfl
@[simp] theorem State.setKey_pause (k : Key) (b : Bool) : (s.setKey k b).pause = s.pause := rfl
@[simp] theorem State.setKey_fbChanged (k : Key) (b : Bool) : (s.setKey k b).fbChanged = s.fbChanged := rfl
@[simp] theorem State.setKey_draws (k : Key) (b : Bool) : (s.setKey k b).draws = s.draws := rfl

/-! `setPause` -/

@[simp] theorem State.setPause_mem (b : Bool) : (s.setPause b).mem = s.mem := rfl
@[simp] theorem State.setPause_v (b : Bool) : (s.setPause b).v = s.v := rfl
@[simp] theorem State.setPause_index (b : Bool) : (s.setPause b).index = s.index := rfl
@[simp] theorem State.setPause_pc (b : Bool) : (s.setPause b).pc = s.pc := rfl
@[simp] theorem State.setPause_stack (b : Bool) : (s.setPause b).stack = s.stack := rfl
@[simp] theorem State.setPause_sp (b : Bool) : (s.setPause b).sp = s.sp := rfl
@[simp] theorem State.setPause_dt (b : Bool) : (s.setPause b).dt = s.dt := rfl
@[simp] theorem State.setPause_st (b : Bool) : (s.setPause b).st = s.st := rfl
@[simp] theorem State.setPause_disp (b : Bool) : (s.setPause b).disp = s.disp := rfl
@[simp] theorem State.setPause_key (b : Bool) : (s.setPause b).key = s.key := rfl
@[simp] theorem State.setPause_pause (b : Bool) : (s.setPause b).pause = b := rfl
@[simp] theorem State.setPause_fbChanged (b : Bool) : (s.setPause b).fbChanged = s.fbChanged := rfl
@[simp] theorem State.setPause_draws (b : Bool) : (s.setPause b).draws = s.draws := rfl

/-! `setMem` -/

@[simp] theorem State.setMem_mem (m : Mem) : (s.setMem m).mem = m := rfl
@[simp] theorem State.setMem_v (m : Mem) : (s.setMem m).v = s.v := rfl
@[simp] theorem State.setMem_index (m : Mem) : (s.setMem m).index = s.index := rfl
@[simp] theorem State.setMem_pc (m : Mem) : (s.setMem m).pc = s.pc := rfl
@[simp] theorem State.setMem_stack (m : Mem) : (s.setMem m).stack = s.stack := rfl
@[simp] theorem State.setMem_sp (m : Mem) : (s.setMem m).sp = s.sp := rfl
@[simp] theorem State.setMem_dt (m : Mem) : (s.setMem m).dt = s.dt := rfl
@[simp] theorem State.setMem_st (m : Mem) : (s.setMem m).st = s.st := rfl
@[simp] theorem State.setMem_disp (m : Mem) : (s.setMem m).disp = s.disp := rfl
@[simp] theorem State.setMem_key (m : Mem) : (s.setMem m).key = s.key := rfl
@[simp] theorem State.setMem_pause (m : Mem) : (s.setMem m).pause = s.pause := rfl
@[simp] theorem State.setMem_fbChanged (m : Mem) : (s.setMem m).fbChanged = s.fbChanged := rfl
@[simp] theorem State.setMem_draws (m : Mem) : (s.setMem m).draws = s.draws := rfl

/-! `setFb` -/

@[simp] theorem State.setFb_mem (b : Bool) : (s.setFb b).mem = s.mem := rfl
@[simp] theorem State.setFb_v (b : Bool) : (s.setFb b).v = s.v := rfl
@[simp] theorem State.setFb_index (b : Bool) : (s.setFb b).index = s.index := rfl
@[simp] theorem State.setFb_pc (b : Bool) : (s.setFb b).pc = s.pc := rfl
@[simp] theorem State.setFb_stack (b : Bool) : (s.setFb b).stack = s.stack := rfl
@[simp] theorem State.setFb_sp (b : Bool) : (s.setFb b).sp = s.sp := rfl
@[simp] theorem State.setFb_dt (b : Bool) : (s.setFb b).dt = s.dt := rfl
@[simp] theorem State.setFb_st (b : Bool) : (s.setFb b).st = s.st := rfl
@[simp] theorem State.setFb_disp (b : Bool) : (s.setFb b).disp = s.disp := rfl
@[simp] theorem State.setFb_key (b : Bool) : (s.setFb b).key = s.key := rfl
@[simp] theorem State.setFb_pause (b : Bool) : (s.setFb b).pause = s.pause := rfl
@[simp] theorem State.setFb_fbChanged (b : Bool) : (s.setFb b).fbChanged = b := rfl
@[simp] theorem State.setFb_draws (b : Bool) : (s.setFb b).draws = s.draws := rfl

/-! `setDraws` -/

@[simp] theorem State.setDraws_mem (n : Nat) : (s.setDraws n).mem = s.mem := rfl
@[simp] theorem State.setDraws_v (n : Nat) : (s.setDraws n).v = s.v := rfl
@[simp] theorem State.setDraws_index (n : Nat) : (s.setDraws n).index = s.index := rfl
@[simp] theorem State.setDraws_pc (n : Nat) : (s.setDraws n).pc = s.pc := rfl
@[simp] theorem State.setDraws_stack (n : Nat) : (s.setDraws n).stack = s.stack := rfl
@[simp] theorem State.setDraws_sp (n : Nat) : (s.setDraws n).sp = s.sp := rfl
@[simp] theorem State.setDraws_dt (n : Nat) : (s.setDraws n).dt = s.dt := rfl
@[simp] theorem State.setDraws_st (n : Nat) : (s.setDraws n).st = s.st := rfl
@[simp] theorem State.setDraws_disp (n : Nat) : (s.setDraws n).disp = s.disp := rfl
@[simp] theorem State.setDraws_key (n : Nat) : (s.setDraws n).key = s.key := rfl
@[simp] theorem State.setDraws_pause (n : Nat) : (s.setDraws n).pause = s.pause := rfl
@[simp] theorem State.setDraws_fbChanged (n : Nat) : (s.setDraws n).fbChanged = s.fbChanged := rfl
@[simp] theorem State.setDraws_draws (n : Nat) : (s.setDraws n).draws = n := rfl

/-! Registers after an update (R21) -/

@[simp] theorem State.reg_setV_same (k : Reg) (b : Byte) : (s.setV k b).reg k = b := by
  simp [State.reg]

theorem State.reg_setV_other {k j : Reg} (b : Byte) (h : j ≠ k) : (s.setV k b).reg j = s.reg j := by
  simp only [State.reg, State.setV_v]
  exact Vector.getElem_set_ne _ _ (fun e => h (Fin.ext e.symm))

@[simp] theorem State.reg_setIndex (w : Word) (j : Reg) : (s.setIndex w).reg j = s.reg j := rfl
@[simp] theorem State.reg_setPc (w : Word) (j : Reg) : (s.setPc w).reg j = s.reg j := rfl
@[simp] theorem State.reg_setStack (w : Vector Word 16) (j : Reg) : (s.setStack w).reg j = s.reg j := rfl
@[simp] theorem State.reg_setSp (n : Fin 17) (j : Reg) : (s.setSp n).reg j = s.reg j := rfl
@[simp] theorem State.reg_setDt (b : Byte) (j : Reg) : (s.setDt b).reg j = s.reg j := rfl
@[simp] theorem State.reg_setSt (b : Byte) (j : Reg) : (s.setSt b).reg j = s.reg j := rfl
@[simp] theorem State.reg_setDisp (d : Bitmap) (j : Reg) : (s.setDisp d).reg j = s.reg j := rfl
@[simp] theorem State.reg_setKey (k : Key) (b : Bool) (j : Reg) : (s.setKey k b).reg j = s.reg j := rfl
@[simp] theorem State.reg_setPause (b : Bool) (j : Reg) : (s.setPause b).reg j = s.reg j := rfl
@[simp] theorem State.reg_setMem (m : Mem) (j : Reg) : (s.setMem m).reg j = s.reg j := rfl
@[simp] theorem State.reg_setFb (b : Bool) (j : Reg) : (s.setFb b).reg j = s.reg j := rfl
@[simp] theorem State.reg_setDraws (n : Nat) (j : Reg) : (s.setDraws n).reg j = s.reg j := rfl

/-! Derived updates -/

@[simp] theorem State.advance_mem : s.advance.mem = s.mem := rfl
@[simp] theorem State.advance_v : s.advance.v = s.v := rfl
@[simp] theorem State.advance_index : s.advance.index = s.index := rfl
@[simp] theorem State.advance_pc : s.advance.pc = s.pc + 2 := rfl
@[simp] theorem State.advance_stack : s.advance.stack = s.stack := rfl
@[simp] theorem State.advance_sp : s.advance.sp = s.sp := rfl
@[simp] theorem State.advance_dt : s.advance.dt = s.dt := rfl
@[simp] theorem State.advance_st : s.advance.st = s.st := rfl
@[simp] theorem State.advance_disp : s.advance.disp = s.disp := rfl
@[simp] theorem State.advance_key : s.advance.key = s.key := rfl
@[simp] theorem State.advance_pause : s.advance.pause = s.pause := rfl
@[simp] theorem State.advance_fbChanged : s.advance.fbChanged = s.fbChanged := rfl
@[simp] theorem State.advance_draws : s.advance.draws = s.draws := rfl

@[simp] theorem State.rewind_mem : s.rewind.mem = s.mem := rfl
@[simp] theorem State.rewind_v : s.rewind.v = s.v := rfl
@[simp] theorem State.rewind_index : s.rewind.index = s.index := rfl
@[simp] theorem State.rewind_pc : s.rewind.pc = s.pc - 2 := rfl
@[simp] theorem State.rewind_stack : s.rewind.stack = s.stack := rfl
@[simp] theorem State.rewind_sp : s.rewind.sp = s.sp := rfl
@[simp] theorem State.rewind_dt : s.rewind.dt = s.dt := rfl
@[simp] theorem State.rewind_st : s.rewind.st = s.st := rfl
@[simp] theorem State.rewind_disp : s.rewind.disp = s.disp := rfl
@[simp] theorem State.rewind_key : s.rewind.key = s.key := rfl
@[simp] theorem State.rewind_pause : s.rewind.pause = s.pause := rfl
@[simp] theorem State.rewind_fbChanged : s.rewind.fbChanged = s.fbChanged := rfl
@[simp] theorem State.rewind_draws : s.rewind.draws = s.draws := rfl

@[simp] theorem State.consumeRand_mem : s.consumeRand.mem = s.mem := rfl
@[simp] theorem State.consumeRand_v : s.consumeRand.v = s.v := rfl
@[simp] theorem State.consumeRand_index : s.consumeRand.index = s.index := rfl
@[simp] theorem State.consumeRand_pc : s.consumeRand.pc = s.pc := rfl
@[simp] theorem State.consumeRand_stack : s.consumeRand.stack = s.stack := rfl
@[simp] theorem State.consumeRand_sp : s.consumeRand.sp = s.sp := rfl
@[simp] theorem State.consumeRand_dt : s.consumeRand.dt = s.dt := rfl
@[simp] theorem State.consumeRand_st : s.consumeRand.st = s.st := rfl
@[simp] theorem State.consumeRand_disp : s.consumeRand.disp = s.disp := rfl
@[simp] theorem State.consumeRand_key : s.consumeRand.key = s.key := rfl
@[simp] theorem State.consumeRand_pause : s.consumeRand.pause = s.pause := rfl
@[simp] theorem State.consumeRand_fbChanged : s.consumeRand.fbChanged = s.fbChanged := rfl
@[simp] theorem State.consumeRand_draws : s.consumeRand.draws = s.draws + 1 := rfl

@[simp] theorem State.skipIf_mem (c : Bool) : (s.skipIf c).mem = s.mem := by
  cases c <;> rfl
@[simp] theorem State.skipIf_v (c : Bool) : (s.skipIf c).v = s.v := by
  cases c <;> rfl
@[simp] theorem State.skipIf_index (c : Bool) : (s.skipIf c).index = s.index := by
  cases c <;> rfl
theorem State.skipIf_pc (c : Bool) : (s.skipIf c).pc = if c then s.pc + 2 else s.pc := by
  cases c <;> rfl
@[simp] theorem State.skipIf_stack (c : Bool) : (s.skipIf c).stack = s.stack := by
  cases c <;> rfl
@[simp] theorem State.skipIf_sp (c : Bool) : (s.skipIf c).sp = s.sp := by
  cases c <;> rfl
@[simp] theorem State.skipIf_dt (c : Bool) : (s.skipIf c).dt = s.dt := by
  cases c <;> rfl
@[simp] theorem State.skipIf_st (c : Bool) : (s.skipIf c).st = s.st := by
  cases c <;> rfl
@[simp] theorem State.skipIf_disp (c : Bool) : (s.skipIf c).disp = s.disp := by
  cases c <;> rfl
@[simp] theorem State.skipIf_key (c : Bool) : (s.skipIf c).key = s.key := by
  cases c <;> rfl
@[simp] theorem State.skipIf_pause (c : Bool) : (s.skipIf c).pause = s.pause := by
  cases c <;> rfl
@[simp] theorem State.skipIf_fbChanged (c : Bool) : (s.skipIf c).fbChanged = s.fbChanged := by
  cases c <;> rfl
@[simp] theorem State.skipIf_draws (c : Bool) : (s.skipIf c).draws = s.draws := by
  cases c <;> rfl

end Sys2Proof.Machine
end

