-- ==== Sys2Proof/Laws/Ops.lean ====
section
/-! SUPPORT. One lemma for each shared operation that says once everything it can do; callers cite these and do
not unfold the operation. -/

namespace Sys2Proof.Machine

/-! ### Memory (R42, R45) -/

theorem Memory.read_erase_other {a a' : Nat} (h : a' ≠ a) (m : Mem) :
    Memory.read (Memory.erase m a) a' = Memory.read m a' := by
  induction m with
  | nil => rfl
  | cons c rest ih =>
    by_cases hc : c.1 = a
    · have : c.1 ≠ a' := fun e => h (e.symm.trans hc)
      simpa [Memory.erase, hc, Memory.read, this, h.symm] using ih
    · by_cases hc' : c.1 = a'
      · simp [Memory.erase, Memory.read, hc', h]
      · simpa [Memory.erase, hc, Memory.read, hc'] using ih

theorem Memory.read_of_unlisted_in {a : Nat} {m : Mem} (h : ∀ c ∈ m, c.1 ≠ a) :
    Memory.read m a = Memory.unlisted a := by
  induction m with
  | nil => rfl
  | cons c rest ih =>
    have hc := h c (by simp)
    simp only [Memory.read, hc, if_false]
    exact ih fun d hd => h d (by simp [hd])

theorem Memory.erase_misses (m : Mem) (a : Nat) : ∀ c ∈ Memory.erase m a, c.1 ≠ a := by
  intro c hc
  simpa using (List.mem_filter.mp hc).2

theorem Memory.read_insert {a : Nat} {m : Mem} (h : ∀ c ∈ m, c.1 ≠ a) (b : Byte) (a' : Nat) :
    Memory.read (Memory.insert m a b) a' = if a' = a then b else Memory.read m a' := by
  induction m with
  | nil =>
    by_cases e : a' = a
    · simp [Memory.insert, Memory.read, e]
    · simp [Memory.insert, Memory.read, e, Ne.symm e]
  | cons c rest ih =>
    have hc : c.1 ≠ a := h c (by simp)
    have ih := ih fun d hd => h d (by simp [hd])
    unfold Memory.insert
    split
    · by_cases e : a' = a
      · simp [Memory.read, e]
      · simp [Memory.read, e, Ne.symm e]
    · by_cases e : a' = a
      · subst e
        simp [Memory.read, hc, ih]
      · by_cases e' : c.1 = a' <;> simp [Memory.read, e', e, ih]

/-- A read after a write: the byte written at its address, every other address as before. -/
theorem Memory.read_write (m : Mem) (a : Nat) (b : Byte) (a' : Nat) :
    Memory.read (Memory.write m a b) a' = if a' = a then b else Memory.read m a' := by
  unfold Memory.write
  split
  · rename_i hb
    split
    · rename_i e
      rw [e, Memory.read_of_unlisted_in (Memory.erase_misses m a), hb]
    · exact Memory.read_erase_other ‹_› m
  · rw [Memory.read_insert (Memory.erase_misses m a)]
    split
    · rfl
    · exact Memory.read_erase_other ‹_› m

/-- A read after a write of some bytes: inside the range the byte written, outside as before. -/
theorem Memory.read_writeBytes (m : Mem) (base : Nat) (bs : List Byte) (a : Nat) :
    Memory.read (Memory.writeBytes m base bs) a =
      if base ≤ a ∧ a < base + bs.length then bs.getD (a - base) 0 else Memory.read m a := by
  induction bs generalizing m base with
  | nil =>
    have h : ¬(base ≤ a ∧ a < base + ([] : List Byte).length) := by
      rw [List.length_nil]
      omega
    rw [if_neg h]
    rfl
  | cons b bs ih =>
    rw [Memory.writeBytes, ih, Memory.read_write]
    simp only [List.length_cons]
    by_cases h1 : base + 1 ≤ a ∧ a < base + 1 + bs.length
    · rw [if_pos h1, if_pos (by omega), show a - base = (a - (base + 1)) + 1 by omega]
      rfl
    · rw [if_neg h1]
      by_cases h2 : a = base
      · rw [if_pos h2, if_pos (by omega), h2, Nat.sub_self]
        rfl
      · rw [if_neg h2, if_neg (by omega)]

@[simp] theorem Memory.readBytes_length (m : Mem) (base n : Nat) : (Memory.readBytes m base n).length = n := by
  simp [Memory.readBytes]

theorem Memory.readBytes_getD (m : Mem) (base : Nat) {n k : Nat} (h : k < n) :
    (Memory.readBytes m base n).getD k 0 = Memory.read m (base + k) := by
  simp [Memory.readBytes, List.getD, h]

/-! ### The canonical form of memory -/

theorem Memory.mem_insert {m : Mem} {a : Nat} {b : Byte} {c : Host.Cell} :
    c ∈ Memory.insert m a b ↔ c = (a, b) ∨ c ∈ m := by
  induction m with
  | nil => simp [Memory.insert]
  | cons d rest ih =>
    unfold Memory.insert
    split
    · simp
    · simp only [List.mem_cons, ih]
      exact ⟨fun h => by tauto, fun h => by tauto⟩

theorem Memory.rising_insert {m : Mem} (h : m.Pairwise fun p q => p.1 < q.1) {a : Nat} (b : Byte)
    (ha : ∀ c ∈ m, c.1 ≠ a) : (Memory.insert m a b).Pairwise fun p q => p.1 < q.1 := by
  induction m with
  | nil => simp [Memory.insert]
  | cons d rest ih =>
    have hd := List.pairwise_cons.mp h
    unfold Memory.insert
    split
    · rename_i hlt
      refine List.pairwise_cons.mpr ⟨fun c hc => ?_, h⟩
      rcases List.mem_cons.mp hc with rfl | hc
      · exact hlt
      · exact Nat.lt_trans hlt (hd.1 c hc)
    · rename_i hge
      refine List.pairwise_cons.mpr ⟨fun c hc => ?_, ih hd.2 fun c hc => ha c (by simp [hc])⟩
      have hda : d.1 ≠ a := ha d (by simp)
      rcases Memory.mem_insert.mp hc with rfl | hc
      · exact Nat.lt_of_le_of_ne (Nat.le_of_not_lt hge) hda
      · exact hd.1 c hc

/-- A write at an existing address keeps the canonical form. -/
theorem Memory.wf_write {m : Mem} (h : Memory.wf m) {a : Nat} (ha : a < 4096) (b : Byte) :
    Memory.wf (Memory.write m a b) := by
  have herase : Memory.wf (Memory.erase m a) :=
    ⟨h.1.filter _, fun c hc => h.2 c (List.mem_filter.mp hc).1⟩
  unfold Memory.write
  split
  · exact herase
  · rename_i hb
    refine ⟨Memory.rising_insert herase.1 b (Memory.erase_misses m a), fun c hc => ?_⟩
    rcases Memory.mem_insert.mp hc with rfl | hc
    · exact ⟨ha, hb⟩
    · exact herase.2 c hc

/-- A write of bytes inside memory keeps the canonical form. -/
theorem Memory.wf_writeBytes {m : Mem} (h : Memory.wf m) {base : Nat} {bs : List Byte}
    (hb : base + bs.length ≤ 4096) : Memory.wf (Memory.writeBytes m base bs) := by
  induction bs generalizing m base with
  | nil => exact h
  | cons b bs ih =>
    simp only [List.length_cons] at hb
    exact ih (Memory.wf_write h (by omega) b) (by omega)

/-- A lower address than every listed one is unlisted. -/
theorem Memory.read_below {m : Mem} {a : Nat} (h : ∀ c ∈ m, a < c.1) : Memory.read m a = Memory.unlisted a :=
  Memory.read_of_unlisted_in fun c hc => (h c hc).ne'

/-- In canonical form equal memories are equal lists. -/
theorem Memory.eq_of_read_eq {m m' : Mem} (h : Memory.wf m) (h' : Memory.wf m')
    (hr : ∀ a, Memory.read m a = Memory.read m' a) : m = m' := by
  induction m generalizing m' with
  | nil =>
    cases m' with
    | nil => rfl
    | cons d r => exact absurd (by simpa [Memory.read] using (hr d.1).symm) (h'.2 d (by simp)).2
  | cons c rest ih =>
    cases m' with
    | nil => exact absurd (by simpa [Memory.read] using hr c.1) (h.2 c (by simp)).2
    | cons d r =>
      have p1 := List.pairwise_cons.mp h.1
      have p2 := List.pairwise_cons.mp h'.1
      have e1 : c.2 = if d.1 = c.1 then d.2 else Memory.read r c.1 := by simpa [Memory.read] using hr c.1
      have e2 : (if c.1 = d.1 then c.2 else Memory.read rest d.1) = d.2 := by simpa [Memory.read] using hr d.1
      have hcd : c.1 = d.1 := by
        rcases Nat.lt_trichotomy c.1 d.1 with hl | he | hl
        · rw [if_neg hl.ne', Memory.read_below fun e he => Nat.lt_trans hl (p2.1 e he)] at e1
          exact absurd e1 (h.2 c (by simp)).2
        · exact he
        · rw [if_neg hl.ne', Memory.read_below fun e he => Nat.lt_trans hl (p1.1 e he)] at e2
          exact absurd e2.symm (h'.2 d (by simp)).2
      obtain rfl : c = d := Prod.ext hcd (by simpa [hcd] using e1)
      congr 1
      refine ih ⟨p1.2, fun e he => h.2 e (by simp [he])⟩ ⟨p2.2, fun e he => h'.2 e (by simp [he])⟩ fun a => ?_
      by_cases ha : c.1 = a
      · rw [← ha, Memory.read_below p1.1, Memory.read_below p2.1]
      · simpa [Memory.read, ha] using hr a

/-- Reset memory lists nothing and is in canonical form. -/
theorem State.reset_mem_wf : Memory.wf State.reset.mem := by
  simp [State.reset, Memory.wf]

/-! ### Checked accesses -/

theorem checkRange_ok {base n : Nat} (h : n = 0 ∨ base + n ≤ 4096) : checkRange base n = .ok () := if_pos h

theorem checkRange_error {base n : Nat} (h : ¬(n = 0 ∨ base + n ≤ 4096)) :
    checkRange base n = .error (.addressOutOfRange (max base 4096)) := if_neg h

/-- A checked read answers the bytes where the range exists, else the lowest address out of range. -/
theorem memRead_eq (m : Mem) (base n : Nat) :
    memRead m base n = if n = 0 ∨ base + n ≤ 4096 then .ok (Memory.readBytes m base n)
      else .error (.addressOutOfRange (max base 4096)) := by
  unfold memRead checkRange
  by_cases h : n = 0 ∨ base + n ≤ 4096
  · rw [if_pos h, if_pos h]
  · rw [if_neg h, if_neg h]

/-- A checked write answers the new memory where the range exists, else the lowest address out of range. -/
theorem memWrite_eq (m : Mem) (base : Nat) (bs : List Byte) :
    memWrite m base bs = if bs.length = 0 ∨ base + bs.length ≤ 4096 then .ok (Memory.writeBytes m base bs)
      else .error (.addressOutOfRange (max base 4096)) := by
  unfold memWrite checkRange
  by_cases h : bs.length = 0 ∨ base + bs.length ≤ 4096
  · rw [if_pos h, if_pos h]
  · rw [if_neg h, if_neg h]

theorem memReadOpcode_ok {m : Mem} {pc : Nat} (h : pc ≤ 4094) :
    memReadOpcode m pc = .ok (assemble (Memory.read m pc) (Memory.read m (pc + 1))) :=
  if_pos (show pc + 2 ≤ 4096 by omega)

theorem memReadOpcode_error {m : Mem} {pc : Nat} (h : 4094 < pc) :
    memReadOpcode m pc = .error (.addressOutOfRange pc) :=
  if_neg (show ¬ pc + 2 ≤ 4096 by omega)

/-! ### Raising -/

@[simp] theorem orRaise_ok {α : Type} (a : α) (k : α → Result) : orRaise (.ok a) k = k a := rfl

@[simp] theorem orRaise_error {α : Type} (f : Fault) (k : α → Result) : orRaise (.error f) k = .fault f := rfl

/-- What can come of an `orRaise` that answers a next state. -/
theorem orRaise_next {α : Type} {e : Except Fault α} {k : α → Result} {t : State} (h : orRaise e k = .next t) :
    ∃ a, e = .ok a ∧ k a = .next t := by
  cases e with
  | error f => exact absurd h (by simp [orRaise, raise])
  | ok a => exact ⟨a, rfl, h⟩

/-! ### Stack (R25) -/

theorem State.push_full {s : State} {w : Word} (h : s.sp.val = 16) : s.push w = .error .stackOverflow := by
  simp [State.push, h]

theorem State.push_room {s : State} {w : Word} (h : s.sp.val < 16) :
    s.push w = .ok ((s.setStack (s.stack.set s.sp.val w)).setSp ⟨s.sp.val + 1, Nat.succ_lt_succ h⟩) := by
  simp [State.push, h]

theorem State.pop_empty {s : State} (h : s.sp.val = 0) : s.pop = .error .stackUnderflow := by
  simp [State.pop, h]

theorem State.pop_held {s : State} (h : 0 < s.sp.val) :
    s.pop = .ok (s.stack[s.sp.val - 1], s.setSp ⟨s.sp.val - 1, by omega⟩) := by
  simp [State.pop, h]

/-! ### Operands -/

theorem keyOperand_ok {s : State} {x : Reg} (h : (s.reg x).toNat < 16) :
    keyOperand s x = .ok ⟨(s.reg x).toNat, h⟩ := dif_pos h

theorem keyOperand_error {s : State} {x : Reg} (h : ¬ (s.reg x).toNat < 16) :
    keyOperand s x = .error (.keyIndexOutOfRange (s.reg x)) := dif_neg h

@[simp] theorem regsUpTo_length (s : State) (x : Reg) : (regsUpTo s x).length = x.val + 1 := by
  simp [regsUpTo]

theorem regsUpTo_getD (s : State) (x : Reg) (k : Reg) (h : k ≤ x) : (regsUpTo s x).getD k.val 0 = s.reg k := by
  have hk : k.val < x.val + 1 := Nat.lt_succ_of_le h
  simp [regsUpTo, List.getD, hk, State.reg]

/-- A block of bytes put into registers from `V[k]` on: those registers hold the bytes, the others are kept. -/
theorem loadInto_getElem (v : Vector Byte 16) (k : Nat) (bs : List Byte) (j : Nat) (hj : j < 16) :
    (loadInto v k bs)[j] = if k ≤ j ∧ j < k + bs.length then bs.getD (j - k) 0 else v[j] := by
  induction bs generalizing v k with
  | nil =>
    have h : ¬(k ≤ j ∧ j < k + ([] : List Byte).length) := by
      rw [List.length_nil]
      omega
    rw [if_neg h]
    rfl
  | cons b bs ih =>
    rw [loadInto, ih]
    simp only [List.length_cons]
    by_cases h1 : k + 1 ≤ j ∧ j < k + 1 + bs.length
    · rw [if_pos h1, if_pos (by omega), show j - k = (j - (k + 1)) + 1 by omega]
      rfl
    · rw [if_neg h1, Vector.getElem_setIfInBounds]
      by_cases h2 : k = j
      · rw [if_pos h2, if_pos (by omega), h2, Nat.sub_self]
        rfl
      · rw [if_neg h2, if_neg (by omega)]

/-! ### Flags -/

/-- After a result and its flag are written, `VF` holds the flag, whatever `x` is (R22). -/
@[simp] theorem State.setResultFlag_vf (s : State) (x : Reg) (r : Byte) (f : Bool) :
    (s.setResultFlag x r f).reg VF = flagByte f := by
  simp [State.setResultFlag]

/-- With `x` not 15 the result is in `V[x]`. -/
theorem State.setResultFlag_result (s : State) {x : Reg} (h : x ≠ VF) (r : Byte) (f : Bool) :
    (s.setResultFlag x r f).reg x = r := by
  rw [State.setResultFlag, State.reg_setV_other _ _ h, State.reg_setV_same]

/-- Every register but `V[x]` and `VF` is kept. -/
theorem State.setResultFlag_other (s : State) {x k : Reg} (h : k ≠ x) (hf : k ≠ VF) (r : Byte) (f : Bool) :
    (s.setResultFlag x r f).reg k = s.reg k := by
  rw [State.setResultFlag, State.reg_setV_other _ _ hf, State.reg_setV_other _ _ h]

theorem flagByte_toNat (f : Bool) : (flagByte f).toNat = if f then 1 else 0 := by
  cases f <;> rfl

theorem narrow_toNat (n : Nat) : (narrow n).toNat = n % 256 := by
  simp [narrow]

theorem difference_toNat (a b : Byte) : (difference a b).toNat = (a.toNat + 256 - b.toNat) % 256 :=
  narrow_toNat _

/-! ### Display -/

/-- A toggle flips its pixel and keeps every other one. -/
theorem Bitmap.pixel_toggle (d : Bitmap) (r r' : Row) (c c' : Col) :
    Bitmap.pixel (Bitmap.toggle d r c) r' c' =
      if r' = r ∧ c' = c then !Bitmap.pixel d r c else Bitmap.pixel d r' c' := by
  unfold Bitmap.pixel Bitmap.toggle
  rw [Vector.getElem_set]
  by_cases hr : r.val = r'.val
  · have hr' : r' = r := (Fin.ext hr).symm
    subst hr'
    simp only [if_true, Vector.getElem_set, true_and]
    by_cases hc : c.val = c'.val
    · have hc' : c' = c := (Fin.ext hc).symm
      subst hc'
      simp
    · rw [if_neg hc, if_neg fun e : c' = c => hc (congrArg Fin.val e.symm)]
  · rw [if_neg hr, if_neg fun e : r' = r ∧ c' = c => hr (congrArg Fin.val e.1.symm)]

@[simp] theorem Bitmap.pixel_clear (r : Row) (c : Col) : Bitmap.pixel Bitmap.clear r c = false := by
  simp [Bitmap.pixel, Bitmap.clear]

/-! ### The step -/

/-- A paused step. -/
theorem step_paused {s : State} (h : s.pause = true) : step s = .next (s.setFb false) := by
  simp [step, stepWith, h, pausedStep]

/-- A step that fetches beyond memory. -/
theorem step_fetch_fault {s : State} (h : s.pause = false) (hpc : 4094 < s.pc.toNat) :
    step s = .fault (.addressOutOfRange s.pc.toNat) := by
  simp [step, stepWith, h, fetch, memReadOpcode_error hpc]

/-- A step that fetches a word: the fault of an illegal word, or the run of the instruction. -/
theorem step_fetched {s : State} (h : s.pause = false) (hpc : s.pc.toNat ≤ 4094) :
    step s = match decodeWord (assemble (Memory.read s.mem s.pc.toNat) (Memory.read s.mem (s.pc.toNat + 1))) with
      | none => .fault (.unimplementedOpcode
          (assemble (Memory.read s.mem s.pc.toNat) (Memory.read s.mem (s.pc.toNat + 1))))
      | some i => exec i (s.advance.setFb false) := by
  simp only [step, stepWith, h, fetch, memReadOpcode_ok hpc, decodeFetched, orRaise_ok]
  cases decodeWord (assemble (Memory.read s.mem s.pc.toNat) (Memory.read s.mem (s.pc.toNat + 1))) <;> rfl

/-- Everything a step can do when it answers a next state. -/
theorem step_next {s t : State} (h : step s = .next t) :
    (s.pause = true ∧ t = s.setFb false) ∨
      (s.pause = false ∧ s.pc.toNat ≤ 4094 ∧
        ∃ i, decodeWord (assemble (Memory.read s.mem s.pc.toNat) (Memory.read s.mem (s.pc.toNat + 1))) = some i ∧
          exec i (s.advance.setFb false) = .next t) := by
  cases hp : s.pause with
  | true =>
    rw [step_paused hp] at h
    exact .inl ⟨rfl, (Host.Outcome.next.inj h).symm⟩
  | false =>
    refine .inr ⟨rfl, ?_⟩
    by_cases hpc : s.pc.toNat ≤ 4094
    · refine ⟨hpc, ?_⟩
      rw [step_fetched hp hpc] at h
      cases hd : decodeWord (assemble (Memory.read s.mem s.pc.toNat) (Memory.read s.mem (s.pc.toNat + 1))) with
      | none => simp [hd] at h
      | some i => exact ⟨i, rfl, by simpa [hd] using h⟩
    · rw [step_fetch_fault hp (Nat.lt_of_not_le hpc)] at h
      cases h

end Sys2Proof.Machine
end

