-- ==== Sys2Proof/Laws/Parts.lean ====
section
/-! SUPPORT. What each update of `State` does to each part: one lemma per update, and the laws of `OnlyChanges`, so
that a frame is read off the updates an instruction makes. -/

namespace Sys2Proof.Machine

variable (s : State)

/-! What each part holds -/

theorem State.view_v (k : Reg) : s.view (.v k) = (s.reg k).toNat := rfl

theorem State.view_index : s.view .index = s.index.toNat := rfl

theorem State.view_pc : s.view .pc = s.pc.toNat := rfl

theorem State.view_slot (k : Fin 16) : s.view (.slot k) = s.stack[k.val].toNat := rfl

theorem State.view_sp : s.view .sp = s.sp.val := rfl

theorem State.view_dt : s.view .dt = s.dt.toNat := rfl

theorem State.view_st : s.view .st = s.st.toNat := rfl

theorem State.view_pixel (r : Row) (c : Col) : s.view (.pixel r c) = (Bitmap.pixel s.disp r c).toNat := rfl

theorem State.view_key (k : Key) : s.view (.key k) = (s.pressed k).toNat := rfl

theorem State.view_pause : s.view .pause = s.pause.toNat := rfl

theorem State.view_mem (a : Nat) : s.view (.mem a) = (Memory.read s.mem a).toNat := rfl

theorem State.view_fbChanged : s.view .fbChanged = s.fbChanged.toNat := rfl

theorem State.view_draws : s.view .draws = s.draws := rfl

theorem State.view_setV (x : Reg) (b : Byte) (p : Part) :
    (s.setV x b).view p = if p = .v x then b.toNat else s.view p := by
  cases p with
  | v k =>
    by_cases h : k = x
    · subst h
      simp [State.view]
    · simp [State.view, State.reg_setV_other _ _ h, h]
  | _ => rfl

theorem State.view_setVs (w : Vector Byte 16) (p : Part) :
    (s.setVs w).view p = match p with | .v k => w[k.val].toNat | q => s.view q := by
  cases p <;> rfl

theorem State.view_setStack (w : Vector Word 16) (p : Part) :
    (s.setStack w).view p = match p with | .slot k => w[k.val].toNat | q => s.view q := by
  cases p <;> rfl

theorem State.view_setDisp (d : Bitmap) (p : Part) :
    (s.setDisp d).view p = match p with | .pixel r c => (Bitmap.pixel d r c).toNat | q => s.view q := by
  cases p <;> rfl

theorem State.view_setMem (m : Mem) (p : Part) :
    (s.setMem m).view p = match p with | .mem a => (Memory.read m a).toNat | q => s.view q := by
  cases p <;> rfl

theorem State.view_setKey (k : Key) (b : Bool) (p : Part) :
    (s.setKey k b).view p = if p = .key k then b.toNat else s.view p := by
  cases p with
  | key j =>
    by_cases h : j = k
    · subst h
      simp [State.view, State.pressed]
    · have : k.val ≠ j.val := fun e => h (Fin.ext e.symm)
      simp [State.view, State.pressed, h, Vector.getElem_set_ne _ _ this]
  | _ => rfl

theorem State.view_setIndex (w : Word) (p : Part) :
    (s.setIndex w).view p = if p = .index then w.toNat else s.view p := by
  cases p <;> rfl

theorem State.view_setPc (w : Word) (p : Part) :
    (s.setPc w).view p = if p = .pc then w.toNat else s.view p := by
  cases p <;> rfl

theorem State.view_setSp (n : Fin 17) (p : Part) :
    (s.setSp n).view p = if p = .sp then n.val else s.view p := by
  cases p <;> rfl

theorem State.view_setDt (b : Byte) (p : Part) :
    (s.setDt b).view p = if p = .dt then b.toNat else s.view p := by
  cases p <;> rfl

theorem State.view_setSt (b : Byte) (p : Part) :
    (s.setSt b).view p = if p = .st then b.toNat else s.view p := by
  cases p <;> rfl

theorem State.view_setPause (b : Bool) (p : Part) :
    (s.setPause b).view p = if p = .pause then b.toNat else s.view p := by
  cases p <;> rfl

theorem State.view_setFb (b : Bool) (p : Part) :
    (s.setFb b).view p = if p = .fbChanged then b.toNat else s.view p := by
  cases p <;> rfl

theorem State.view_setDraws (n : Nat) (p : Part) :
    (s.setDraws n).view p = if p = .draws then n else s.view p := by
  cases p <;> rfl

end Sys2Proof.Machine

namespace Sys2Proof

open Machine

theorem OnlyChanges.refl (s : State) (W : Part → Prop) : OnlyChanges s s W := fun _ _ => rfl

theorem OnlyChanges.mono {s t : State} {W W' : Part → Prop} (h : OnlyChanges s t W) (hw : ∀ p, W p → W' p) :
    OnlyChanges s t W' := fun p hp => h p fun w => hp (hw p w)

/-- Two changes in a row change what either changes. -/
theorem OnlyChanges.trans {s t u : State} {W W' : Part → Prop} (h : OnlyChanges s t W) (h' : OnlyChanges t u W') :
    OnlyChanges s u fun p => W p ∨ W' p := fun p hp =>
  (h' p fun w => hp (.inr w)).trans (h p fun w => hp (.inl w))

theorem onlyChanges_setV (s : State) (x : Reg) (b : Byte) : OnlyChanges s (s.setV x b) fun p => p = .v x :=
  fun p hp => (s.view_setV x b p).trans (if_neg hp)

theorem onlyChanges_setResultFlag (s : State) (x : Reg) (r : Byte) (f : Bool) :
    OnlyChanges s (s.setResultFlag x r f) fun p => p = .v x ∨ p = .v VF :=
  (onlyChanges_setV s x r).trans (onlyChanges_setV (s.setV x r) VF (flagByte f))

theorem onlyChanges_setKey (s : State) (k : Key) (b : Bool) : OnlyChanges s (s.setKey k b) fun p => p = .key k :=
  fun p hp => (s.view_setKey k b p).trans (if_neg hp)

theorem onlyChanges_setIndex (s : State) (w : Word) : OnlyChanges s (s.setIndex w) fun p => p = .index :=
  fun p hp => (s.view_setIndex w p).trans (if_neg hp)

theorem onlyChanges_setPc (s : State) (w : Word) : OnlyChanges s (s.setPc w) fun p => p = .pc :=
  fun p hp => (s.view_setPc w p).trans (if_neg hp)

theorem onlyChanges_setSp (s : State) (n : Fin 17) : OnlyChanges s (s.setSp n) fun p => p = .sp :=
  fun p hp => (s.view_setSp n p).trans (if_neg hp)

theorem onlyChanges_setDt (s : State) (b : Byte) : OnlyChanges s (s.setDt b) fun p => p = .dt :=
  fun p hp => (s.view_setDt b p).trans (if_neg hp)

theorem onlyChanges_setSt (s : State) (b : Byte) : OnlyChanges s (s.setSt b) fun p => p = .st :=
  fun p hp => (s.view_setSt b p).trans (if_neg hp)

theorem onlyChanges_setPause (s : State) (b : Bool) : OnlyChanges s (s.setPause b) fun p => p = .pause :=
  fun p hp => (s.view_setPause b p).trans (if_neg hp)

theorem onlyChanges_setFb (s : State) (b : Bool) : OnlyChanges s (s.setFb b) fun p => p = .fbChanged :=
  fun p hp => (s.view_setFb b p).trans (if_neg hp)

theorem onlyChanges_setDraws (s : State) (n : Nat) : OnlyChanges s (s.setDraws n) fun p => p = .draws :=
  fun p hp => (s.view_setDraws n p).trans (if_neg hp)

theorem onlyChanges_setDisp (s : State) (d : Bitmap) :
    OnlyChanges s (s.setDisp d) fun p => ∃ r c, p = .pixel r c := by
  intro p hp
  cases p with
  | pixel r c => exact absurd ⟨r, c, rfl⟩ hp
  | _ => rfl

/-- A block of bytes written to memory changes those bytes alone. -/
theorem onlyChanges_writeBytes (s : State) (base : Nat) (bs : List Byte) :
    OnlyChanges s (s.setMem (Memory.writeBytes s.mem base bs)) fun p => ∃ k, k < bs.length ∧ p = .mem (base + k) := by
  intro p hp
  cases p with
  | mem a =>
    have h : ¬(base ≤ a ∧ a < base + bs.length) := fun h =>
      hp ⟨a - base, by omega, congrArg Part.mem (by omega)⟩
    simp [State.view, Memory.read_writeBytes, h]
  | _ => rfl

/-- A block of bytes loaded into the registers from `V[0]` on changes those registers alone. -/
theorem onlyChanges_loadInto (s : State) (bs : List Byte) :
    OnlyChanges s (s.setVs (loadInto s.v 0 bs)) fun p => ∃ k : Reg, k.val < bs.length ∧ p = .v k := by
  intro p hp
  cases p with
  | v k =>
    have h : ¬(0 ≤ k.val ∧ k.val < 0 + bs.length) := fun h => hp ⟨k, by omega, rfl⟩
    simp only [State.view, State.reg, State.setVs_v, loadInto_getElem, if_neg h]
  | _ => rfl

theorem onlyChanges_skipIf (s : State) (c : Bool) : OnlyChanges s (s.skipIf c) fun p => p = .pc := by
  cases c
  · exact OnlyChanges.refl s _
  · exact onlyChanges_setPc s _

end Sys2Proof
end

