-- ==== Sys2Proof/Laws/Display.lean ====
section
/-! SUPPORT. What the sprite draw does, said once: each pixel under a set sprite bit flips, no other pixel changes, and
the collision flag says whether a pixel that was set was hit (43_display.md R131). -/

namespace Sys2Proof.Machine

/-- The set bits of the bytes of a sprite, the first of them row number `row` of the sprite. -/
def Hit (vx vy row : Nat) (bs : List Byte) (r : Row) (c : Col) : Prop :=
  ∃ k col, k < bs.length ∧ col < 8 ∧ spriteBit (bs.getD k 0) col = true ∧
    r.val = (vy + (row + k)) % 32 ∧ c.val = (vx + col) % 64

/-- The set bits of one row byte in its first `n` columns. -/
def HitRow (vx vy row : Nat) (b : Byte) (n : Nat) (r : Row) (c : Col) : Prop :=
  ∃ col, col < n ∧ spriteBit b col = true ∧ r.val = (vy + row) % 32 ∧ c.val = (vx + col) % 64

/-- What drawing with a set of hit pixels makes of a display and a collision flag. -/
structure Draws (hit : Row → Col → Prop) (before after : Bitmap × Bool) : Prop where
  flips : ∀ r c, hit r c → Bitmap.pixel after.1 r c = !Bitmap.pixel before.1 r c
  keeps : ∀ r c, ¬ hit r c → Bitmap.pixel after.1 r c = Bitmap.pixel before.1 r c
  flag : after.2 = true ↔ before.2 = true ∨ ∃ r c, hit r c ∧ Bitmap.pixel before.1 r c = true

theorem Draws.nothing {hit : Row → Col → Prop} (h : ∀ r c, ¬ hit r c) (a : Bitmap × Bool) : Draws hit a a :=
  ⟨fun r c hc => absurd hc (h r c), fun _ _ _ => rfl,
    ⟨.inl, fun hf => hf.elim id fun ⟨r, c, hc, _⟩ => absurd hc (h r c)⟩⟩

/-- Two draws in a row that hit no pixel in common are one draw of both. -/
theorem Draws.then {h₁ h₂ h : Row → Col → Prop} {a b d : Bitmap × Bool} (d₁ : Draws h₁ a b) (d₂ : Draws h₂ b d)
    (disjoint : ∀ r c, h₁ r c → ¬ h₂ r c) (both : ∀ r c, h r c ↔ h₁ r c ∨ h₂ r c) : Draws h a d := by
  refine ⟨fun r c hh => ?_, fun r c hh => ?_, ?_⟩
  · rcases (both r c).mp hh with h1 | h2
    · rw [d₂.keeps r c (disjoint r c h1), d₁.flips r c h1]
    · rw [d₂.flips r c h2, d₁.keeps r c fun h1 => disjoint r c h1 h2]
  · rw [d₂.keeps r c fun h2 => hh ((both r c).mpr (.inr h2)), d₁.keeps r c fun h1 => hh ((both r c).mpr (.inl h1))]
  · rw [d₂.flag, d₁.flag]
    constructor
    · rintro ((hf | ⟨r, c, h1, hp⟩) | ⟨r, c, h2, hp⟩)
      · exact .inl hf
      · exact .inr ⟨r, c, (both r c).mpr (.inl h1), hp⟩
      · exact .inr ⟨r, c, (both r c).mpr (.inr h2), by rwa [d₁.keeps r c fun h1 => disjoint r c h1 h2] at hp⟩
    · rintro (hf | ⟨r, c, hh, hp⟩)
      · exact .inl (.inl hf)
      · rcases (both r c).mp hh with h1 | h2
        · exact .inl (.inr ⟨r, c, h1, hp⟩)
        · exact .inr ⟨r, c, h2, by rwa [d₁.keeps r c fun h1 => disjoint r c h1 h2]⟩

/-- One sprite bit. -/
theorem drawPixel_draws (vx vy row : Nat) (b : Byte) (a : Bitmap × Bool) (col : Nat) :
    Draws (fun r c => spriteBit b col = true ∧ r.val = (vy + row) % 32 ∧ c.val = (vx + col) % 64) a
      (drawPixel vx vy row b a col) := by
  unfold drawPixel
  split
  · rename_i hb
    have hr : ∀ r : Row, r.val = (vy + row) % 32 ↔ r = Fin.ofNat 32 (vy + row) := fun r => by
      rw [Fin.ext_iff]
      rfl
    have hc : ∀ c : Col, c.val = (vx + col) % 64 ↔ c = Fin.ofNat 64 (vx + col) := fun c => by
      rw [Fin.ext_iff]
      rfl
    simp only [hb, hr, hc, true_and]
    refine ⟨?_, fun r c hn => ?_, ?_⟩
    · rintro r c ⟨rfl, rfl⟩
      rw [Bitmap.pixel_toggle, if_pos ⟨rfl, rfl⟩]
    · rw [Bitmap.pixel_toggle, if_neg hn]
    · simp [Bool.or_eq_true]
  · rename_i hb
    exact Draws.nothing (fun _ _ h => hb h.1) a

/-- The first `n` bits of one sprite row, for `n` up to 8: its columns are distinct modulo 64. -/
theorem drawRow_prefix (vx vy row : Nat) (b : Byte) (a : Bitmap × Bool) (n : Nat) (hn : n ≤ 8) :
    Draws (HitRow vx vy row b n) a ((List.range n).foldl (drawPixel vx vy row b) a) := by
  induction n with
  | zero => exact Draws.nothing (fun _ _ ⟨col, h, _⟩ => absurd h (by omega)) a
  | succ n ih =>
    rw [List.range_succ, List.foldl_append]
    refine (ih (by omega)).then (drawPixel_draws vx vy row b _ n) ?_ ?_
    · rintro r c ⟨col, hcol, _, _, hc⟩ ⟨_, _, hc'⟩
      omega
    · intro r c
      constructor
      · rintro ⟨col, hcol, hb, hr, hc⟩
        rcases Nat.lt_succ_iff_lt_or_eq.mp hcol with h | rfl
        · exact .inl ⟨col, h, hb, hr, hc⟩
        · exact .inr ⟨hb, hr, hc⟩
      · rintro (⟨col, hcol, hb, hr, hc⟩ | ⟨hb, hr, hc⟩)
        · exact ⟨col, by omega, hb, hr, hc⟩
        · exact ⟨n, by omega, hb, hr, hc⟩

/-- One sprite row. -/
theorem drawRow_draws (vx vy row : Nat) (b : Byte) (a : Bitmap × Bool) :
    Draws (HitRow vx vy row b 8) a (drawRow vx vy row b a) :=
  drawRow_prefix vx vy row b a 8 (Nat.le_refl 8)

/-- A sprite of at most 32 rows: its rows are distinct modulo 32. -/
theorem drawRows_draws (vx vy row : Nat) (bs : List Byte) (hn : bs.length ≤ 32) (a : Bitmap × Bool) :
    Draws (Hit vx vy row bs) a (drawRows vx vy row bs a) := by
  induction bs generalizing row a with
  | nil => exact Draws.nothing (fun _ _ ⟨k, _, h, _⟩ => absurd h (by simp)) a
  | cons b bs ih =>
    simp only [List.length_cons] at hn
    refine (drawRow_draws vx vy row b a).then (ih (row + 1) (by omega) _) ?_ ?_
    · rintro r c ⟨col, _, _, hr, _⟩ ⟨k, _, hk, _, _, hr', _⟩
      omega
    · intro r c
      constructor
      · rintro ⟨k, col, hk, hcol, hb, hr, hc⟩
        cases k with
        | zero => exact .inl ⟨col, hcol, hb, hr, hc⟩
        | succ k =>
          exact .inr ⟨k, col, by simpa using hk, hcol, hb, by omega, hc⟩
      · rintro (⟨col, hcol, hb, hr, hc⟩ | ⟨k, col, hk, hcol, hb, hr, hc⟩)
        · exact ⟨0, col, by simp, hcol, hb, hr, hc⟩
        · exact ⟨k + 1, col, by simpa using hk, hcol, hb, by omega, hc⟩

/-- A sprite bit as a digit of its row byte: column `col` is bit `7 - col`. -/
theorem spriteBit_iff (b : Byte) (col : Nat) :
    spriteBit b col = true ↔ b.toNat / 2 ^ (7 - col) % 2 = 1 := by
  simp [spriteBit, BitVec.getLsbD, Nat.testBit_eq_decide_div_mod_eq]

end Sys2Proof.Machine
end

