-- ==== Sys2Proof/Laws/Encoding.lean ====
section
/-! SUPPORT. The small lemmas of the decoder and encoder: every field and every format as a number, so that a claim
about words is arithmetic. -/

namespace Sys2Proof

theorem toNat_append {m n : Nat} (a : BitVec m) (b : BitVec n) : (a ++ b).toNat = a.toNat * 2 ^ n + b.toNat := by
  rw [BitVec.toNat_append, Nat.shiftLeft_eq, Nat.mul_comm, Nat.two_pow_add_eq_or_of_lt b.isLt]

/-! ### Fields (R61) -/

theorem nibble1_toNat (op : Word) : (nibble1 op).toNat = op.toNat / 4096 := by
  have := op.isLt
  simp only [nibble1, BitVec.extractLsb'_toNat, Nat.shiftRight_eq_div_pow]
  omega

theorem nibble2_toNat (op : Word) : (nibble2 op).toNat = op.toNat / 256 % 16 := by
  simp [nibble2, Nat.shiftRight_eq_div_pow]

theorem nibble3_toNat (op : Word) : (nibble3 op).toNat = op.toNat / 16 % 16 := by
  simp [nibble3, Nat.shiftRight_eq_div_pow]

theorem nibble4_toNat (op : Word) : (nibble4 op).toNat = op.toNat % 16 := by
  simp [nibble4]

theorem literal_toNat (op : Word) : (literal op).toNat = op.toNat % 4096 := by
  simp [literal]

theorem immediate_toNat (op : Word) : (immediate op).toNat = op.toNat % 256 := by
  simp [immediate]

@[simp] theorem regOf_val (v : BitVec 4) : (regOf v).val = v.toNat := rfl

@[simp] theorem nibbleOf_toNat (x : Reg) : (nibbleOf x).toNat = x.val := by
  simp [nibbleOf]

/-! ### Bytes in memory order (R43) -/

theorem assemble_toNat (high low : Byte) : (assemble high low).toNat = high.toNat * 256 + low.toNat := by
  have := high.isLt
  have := low.isLt
  rw [assemble, BitVec.toNat_ofNat, Nat.mod_eq_of_lt (by omega)]

theorem highByte_toNat (op : Word) : (highByte op).toNat = op.toNat / 256 := by
  have := op.isLt
  simp only [highByte, BitVec.extractLsb'_toNat, Nat.shiftRight_eq_div_pow]
  omega

theorem lowByte_toNat (op : Word) : (lowByte op).toNat = op.toNat % 256 := by
  simp [lowByte]

/-- A word laid out in memory order and assembled again is the word. -/
@[simp] theorem assemble_bytes (op : Word) : assemble (highByte op) (lowByte op) = op := by
  apply BitVec.eq_of_toNat_eq
  rw [assemble_toNat, highByte_toNat, lowByte_toNat]
  omega

theorem decode_two (high low : Byte) (rest : List Byte) (i : Instr) :
    decode (high :: low :: rest) = .ok (i, rest) ↔ decodeWord (assemble high low) = some i := by
  cases h : decodeWord (assemble high low) <;> simp [decode, h]

/-! ### Formats (R62) -/

theorem formatA_toNat (major : BitVec 4) (nnn : Addr12) :
    (formatA major nnn).toNat = major.toNat * 4096 + nnn.toNat := toNat_append major nnn

theorem formatXI_toNat (major : BitVec 4) (x : Reg) (nn : Byte) :
    (formatXI major x nn).toNat = major.toNat * 4096 + x.val * 256 + nn.toNat := by
  refine (toNat_append _ _).trans ?_
  rw [toNat_append, nibbleOf_toNat]
  omega

theorem formatX_toNat (major : BitVec 4) (x : Reg) (minor : Byte) :
    (formatX major x minor).toNat = major.toNat * 4096 + x.val * 256 + minor.toNat :=
  formatXI_toNat major x minor

theorem formatXY_toNat (major : BitVec 4) (x y : Reg) (minor : BitVec 4) :
    (formatXY major x y minor).toNat = major.toNat * 4096 + x.val * 256 + y.val * 16 + minor.toNat := by
  refine (toNat_append _ _).trans ?_
  rw [toNat_append, toNat_append, nibbleOf_toNat, nibbleOf_toNat]
  omega

end Sys2Proof
end

