-- ==== Sys2Proof/Laws/PerInstr.lean ====
section
/-! SUPPORT. Statements made for each instruction as syntax, one lemma per constructor. -/

namespace Sys2Proof.Laws

/-! ### The fixed bits of each format (R62) -/

theorem nibble_and_ones (v : BitVec 4) : v &&& 0xF#4 = v := by
  revert v
  decide

theorem byte_and_ones (v : BitVec 8) : v &&& 0xFF#8 = v := by
  rw [show (0xFF#8) = BitVec.allOnes 8 from rfl, BitVec.and_allOnes]

/-- Format `A`: `nnn` is masked away. -/
theorem formatA_and (major : BitVec 4) (nnn : Addr12) : formatA major nnn &&& 0xF000 = formatA major 0 := by
  unfold formatA
  rw [show (0xF000 : Word) = 0xF#4 ++ 0x000#12 from rfl, BitVec.and_append, nibble_and_ones]
  simp

/-- Format `XI`: `x` and `nn` are masked away. -/
theorem formatXI_and (major : BitVec 4) (x : Reg) (nn : Byte) :
    formatXI major x nn &&& 0xF000 = formatXI major 0 0 := by
  unfold formatXI
  rw [show (0xF000 : Word) = 0xF#4 ++ 0x0#4 ++ 0x00#8 from rfl, BitVec.and_append, BitVec.and_append,
    nibble_and_ones]
  simp [nibbleOf]

/-- Format `XY`: `x` and `y` are masked away, the minor opcode stays. -/
theorem formatXY_and (major : BitVec 4) (x y : Reg) (minor : BitVec 4) :
    formatXY major x y minor &&& 0xF00F = formatXY major 0 0 minor := by
  unfold formatXY wordOfNibbles
  rw [show (0xF00F : Word) = 0xF#4 ++ 0x0#4 ++ 0x0#4 ++ 0xF#4 from rfl, BitVec.and_append, BitVec.and_append,
    BitVec.and_append, nibble_and_ones, nibble_and_ones]
  simp [nibbleOf]

/-- Format `XYN`: `x`, `y` and `n` are masked away. -/
theorem formatXYN_and (major : BitVec 4) (x y : Reg) (n : BitVec 4) :
    formatXY major x y n &&& 0xF000 = formatXY major 0 0 0 := by
  unfold formatXY wordOfNibbles
  rw [show (0xF000 : Word) = 0xF#4 ++ 0x0#4 ++ 0x0#4 ++ 0x0#4 from rfl, BitVec.and_append, BitVec.and_append,
    BitVec.and_append, nibble_and_ones]
  simp [nibbleOf]

/-- Format `X`: `x` is masked away, the minor byte stays. -/
theorem formatX_and (major : BitVec 4) (x : Reg) (minor : Byte) :
    formatX major x minor &&& 0xF0FF = formatX major 0 minor := by
  unfold formatX
  rw [show (0xF0FF : Word) = 0xF#4 ++ 0x0#4 ++ 0xFF#8 from rfl, BitVec.and_append, BitVec.and_append,
    nibble_and_ones, byte_and_ones]
  simp [nibbleOf]

/-- An instruction's word has the fixed bits of its row: `op & mask = match` (R64). -/
def FitsRow.Statement (i : Instr) : Prop := encode i &&& (rowMaskMatch i.row).1 = (rowMaskMatch i.row).2

theorem FitsRow.nop : FitsRow.Statement .nop := rfl
theorem FitsRow.cls : FitsRow.Statement .cls := rfl
theorem FitsRow.ret : FitsRow.Statement .ret := rfl
theorem FitsRow.jp (nnn : Addr12) : FitsRow.Statement (.jp nnn) := formatA_and _ nnn
theorem FitsRow.call (nnn : Addr12) : FitsRow.Statement (.call nnn) := formatA_and _ nnn
theorem FitsRow.seImm (x : Reg) (nn : Byte) : FitsRow.Statement (.seImm x nn) := formatXI_and _ x nn
theorem FitsRow.sneImm (x : Reg) (nn : Byte) : FitsRow.Statement (.sneImm x nn) := formatXI_and _ x nn
theorem FitsRow.seReg (x y : Reg) : FitsRow.Statement (.seReg x y) := formatXY_and _ x y _
theorem FitsRow.ldImm (x : Reg) (nn : Byte) : FitsRow.Statement (.ldImm x nn) := formatXI_and _ x nn
theorem FitsRow.addImm (x : Reg) (nn : Byte) : FitsRow.Statement (.addImm x nn) := formatXI_and _ x nn
theorem FitsRow.ldReg (x y : Reg) : FitsRow.Statement (.ldReg x y) := formatXY_and _ x y _
theorem FitsRow.orReg (x y : Reg) : FitsRow.Statement (.orReg x y) := formatXY_and _ x y _
theorem FitsRow.andReg (x y : Reg) : FitsRow.Statement (.andReg x y) := formatXY_and _ x y _
theorem FitsRow.xorReg (x y : Reg) : FitsRow.Statement (.xorReg x y) := formatXY_and _ x y _
theorem FitsRow.addReg (x y : Reg) : FitsRow.Statement (.addReg x y) := formatXY_and _ x y _
theorem FitsRow.subReg (x y : Reg) : FitsRow.Statement (.subReg x y) := formatXY_and _ x y _
theorem FitsRow.shr (x y : Reg) : FitsRow.Statement (.shr x y) := formatXY_and _ x y _
theorem FitsRow.subnReg (x y : Reg) : FitsRow.Statement (.subnReg x y) := formatXY_and _ x y _
theorem FitsRow.shl (x y : Reg) : FitsRow.Statement (.shl x y) := formatXY_and _ x y _
theorem FitsRow.sneReg (x y : Reg) : FitsRow.Statement (.sneReg x y) := formatXY_and _ x y _
theorem FitsRow.ldIndex (nnn : Addr12) : FitsRow.Statement (.ldIndex nnn) := formatA_and _ nnn
theorem FitsRow.jpV0 (nnn : Addr12) : FitsRow.Statement (.jpV0 nnn) := formatA_and _ nnn
theorem FitsRow.rnd (x : Reg) (nn : Byte) : FitsRow.Statement (.rnd x nn) := formatXI_and _ x nn
theorem FitsRow.drw (x y : Reg) (n : Nat) : FitsRow.Statement (.drw x y n) := formatXYN_and _ x y _
theorem FitsRow.skp (x : Reg) : FitsRow.Statement (.skp x) := formatX_and _ x _
theorem FitsRow.sknp (x : Reg) : FitsRow.Statement (.sknp x) := formatX_and _ x _
theorem FitsRow.ldFromDt (x : Reg) : FitsRow.Statement (.ldFromDt x) := formatX_and _ x _
theorem FitsRow.ldKey (x : Reg) : FitsRow.Statement (.ldKey x) := formatX_and _ x _
theorem FitsRow.ldDt (x : Reg) : FitsRow.Statement (.ldDt x) := formatX_and _ x _
theorem FitsRow.ldSt (x : Reg) : FitsRow.Statement (.ldSt x) := formatX_and _ x _
theorem FitsRow.addIndex (x : Reg) : FitsRow.Statement (.addIndex x) := formatX_and _ x _
theorem FitsRow.ldFont (x : Reg) : FitsRow.Statement (.ldFont x) := formatX_and _ x _
theorem FitsRow.ldBcd (x : Reg) : FitsRow.Statement (.ldBcd x) := formatX_and _ x _
theorem FitsRow.storeRegs (x : Reg) : FitsRow.Statement (.storeRegs x) := formatX_and _ x _
theorem FitsRow.loadRegs (x : Reg) : FitsRow.Statement (.loadRegs x) := formatX_and _ x _

end Sys2Proof.Laws
end

