-- ==== Sys2Proof/Tests/Slice0.lean ====
section
/-! SUPPORT. The model's own tests. Expected results are those of the test vectors T1 to T159, H1 to H10 and S1 to S10 of
95_test_vectors.md, worked by hand there from the rules; then a witness for the hypotheses of every statement. -/

namespace Sys2Proof.Tests

open Sys2Proof.Machine

/-! ### Helpers -/

/-- The vectors' start state: the initial condition with one word at `pc`. -/
def start (w : Nat) : State := State.reset.withFetchWord 16 w

/-- The step answers a next state in which `p` holds. -/
def after (s : State) (p : State → Bool) : Bool :=
  match step s with
  | .next t => p t
  | _ => false

/-- The step answers the fault `f`. -/
def faults (s : State) (f : Fault) : Bool :=
  match step s with
  | .fault g => g == f
  | _ => false

/-- The registers, `pc` and memory bytes of a state as numbers. -/
def r (t : State) (k : Reg) : Nat := (t.reg k).toNat

def pcOf (t : State) : Nat := t.pc.toNat

def byte (t : State) (a : Nat) : Nat := (Memory.read t.mem a).toNat

def lit (t : State) (row : Row) (col : Col) : Bool := Bitmap.pixel t.disp row col

/-- A state with `sp` and one stack slot set. -/
def held (s : State) (n : Fin 17) (k : Fin 16) (w : Word) : State := (s.setStack (s.stack.set k.val w)).setSp n

/-- A state with one byte of memory set. -/
def poke (s : State) (a : Nat) (b : Byte) : State := s.setMem (Memory.write s.mem a b)

/-- A state with one pixel set. -/
def litAt (s : State) (row : Row) (col : Col) : State := s.setDisp (Bitmap.toggle s.disp row col)

/-! ### Well-formedness: the one check, the sprite row count of `Dxyn` -/

theorem test_wellFormed_rejects_row_count_16 : (Instr.drw 0 1 16).wellFormed = false := by decide

theorem test_wellFormed_accepts_row_count_15 : (Instr.drw 0 1 15).wellFormed = true := by decide

/-! ### Decoding: one word per constructor, written out from R64 -/

theorem test_decode_nop : decodeWord (0b0000#4 ++ 0b0000#4 ++ 0b0000#4 ++ 0b0000#4 : Word) = some .nop := by decide

theorem test_decode_cls : decodeWord (0b0000#4 ++ 0b0000#4 ++ 0b1110#4 ++ 0b0000#4 : Word) = some .cls := by decide

theorem test_decode_ret : decodeWord (0b0000#4 ++ 0b0000#4 ++ 0b1110#4 ++ 0b1110#4 : Word) = some .ret := by decide

theorem test_decode_jp : decodeWord (0b0001#4 ++ 0b1010#4 ++ 0b1011#4 ++ 0b1100#4 : Word) = some (.jp 0xABC) := by decide

theorem test_decode_call : decodeWord (0b0010#4 ++ 0b0011#4 ++ 0b0000#4 ++ 0b0000#4 : Word) = some (.call 0x300) := by decide

theorem test_decode_seImm : decodeWord (0b0011#4 ++ 0b0011#4 ++ 0b0010#4 ++ 0b1010#4 : Word) = some (.seImm 3 0x2A) := by decide

theorem test_decode_sneImm : decodeWord (0b0100#4 ++ 0b0011#4 ++ 0b0010#4 ++ 0b1010#4 : Word) = some (.sneImm 3 0x2A) := by decide

theorem test_decode_seReg : decodeWord (0b0101#4 ++ 0b0001#4 ++ 0b0010#4 ++ 0b0000#4 : Word) = some (.seReg 1 2) := by decide

theorem test_decode_ldImm : decodeWord (0b0110#4 ++ 0b1010#4 ++ 0b0111#4 ++ 0b1111#4 : Word) = some (.ldImm 10 0x7F) := by decide

theorem test_decode_addImm : decodeWord (0b0111#4 ++ 0b1111#4 ++ 0b0000#4 ++ 0b0010#4 : Word) = some (.addImm 15 0x02) := by decide

theorem test_decode_ldReg : decodeWord (0b1000#4 ++ 0b0010#4 ++ 0b0001#4 ++ 0b0000#4 : Word) = some (.ldReg 2 1) := by decide

theorem test_decode_orReg : decodeWord (0b1000#4 ++ 0b0001#4 ++ 0b0010#4 ++ 0b0001#4 : Word) = some (.orReg 1 2) := by decide

theorem test_decode_andReg : decodeWord (0b1000#4 ++ 0b0001#4 ++ 0b0010#4 ++ 0b0010#4 : Word) = some (.andReg 1 2) := by decide

theorem test_decode_xorReg : decodeWord (0b1000#4 ++ 0b0111#4 ++ 0b0111#4 ++ 0b0011#4 : Word) = some (.xorReg 7 7) := by decide

theorem test_decode_addReg : decodeWord (0b1000#4 ++ 0b0001#4 ++ 0b1111#4 ++ 0b0100#4 : Word) = some (.addReg 1 15) := by decide

theorem test_decode_subReg : decodeWord (0b1000#4 ++ 0b1111#4 ++ 0b0010#4 ++ 0b0101#4 : Word) = some (.subReg 15 2) := by decide

theorem test_decode_shr : decodeWord (0b1000#4 ++ 0b0001#4 ++ 0b0010#4 ++ 0b0110#4 : Word) = some (.shr 1 2) := by decide

theorem test_decode_subnReg : decodeWord (0b1000#4 ++ 0b0001#4 ++ 0b0010#4 ++ 0b0111#4 : Word) = some (.subnReg 1 2) := by decide

theorem test_decode_shl : decodeWord (0b1000#4 ++ 0b0001#4 ++ 0b0010#4 ++ 0b1110#4 : Word) = some (.shl 1 2) := by decide

theorem test_decode_sneReg : decodeWord (0b1001#4 ++ 0b0001#4 ++ 0b0010#4 ++ 0b0000#4 : Word) = some (.sneReg 1 2) := by decide

theorem test_decode_ldIndex : decodeWord (0b1010#4 ++ 0b0010#4 ++ 0b1111#4 ++ 0b0000#4 : Word) = some (.ldIndex 0x2F0) := by decide

theorem test_decode_jpV0 : decodeWord (0b1011#4 ++ 0b0011#4 ++ 0b0000#4 ++ 0b0000#4 : Word) = some (.jpV0 0x300) := by decide

theorem test_decode_rnd : decodeWord (0b1100#4 ++ 0b0011#4 ++ 0b0000#4 ++ 0b1111#4 : Word) = some (.rnd 3 0x0F) := by decide

theorem test_decode_drw : decodeWord (0b1101#4 ++ 0b1111#4 ++ 0b0001#4 ++ 0b0101#4 : Word) = some (.drw 15 1 5) := by decide

theorem test_decode_skp : decodeWord (0b1110#4 ++ 0b0100#4 ++ 0b1001#4 ++ 0b1110#4 : Word) = some (.skp 4) := by decide

theorem test_decode_sknp : decodeWord (0b1110#4 ++ 0b0100#4 ++ 0b1010#4 ++ 0b0001#4 : Word) = some (.sknp 4) := by decide

theorem test_decode_ldFromDt : decodeWord (0b1111#4 ++ 0b0101#4 ++ 0b0000#4 ++ 0b0111#4 : Word) = some (.ldFromDt 5) := by decide

theorem test_decode_ldKey : decodeWord (0b1111#4 ++ 0b0011#4 ++ 0b0000#4 ++ 0b1010#4 : Word) = some (.ldKey 3) := by decide

theorem test_decode_ldDt : decodeWord (0b1111#4 ++ 0b0101#4 ++ 0b0001#4 ++ 0b0101#4 : Word) = some (.ldDt 5) := by decide

theorem test_decode_ldSt : decodeWord (0b1111#4 ++ 0b0101#4 ++ 0b0001#4 ++ 0b1000#4 : Word) = some (.ldSt 5) := by decide

theorem test_decode_addIndex : decodeWord (0b1111#4 ++ 0b0010#4 ++ 0b0001#4 ++ 0b1110#4 : Word) = some (.addIndex 2) := by decide

theorem test_decode_ldFont : decodeWord (0b1111#4 ++ 0b0011#4 ++ 0b0010#4 ++ 0b1001#4 : Word) = some (.ldFont 3) := by decide

theorem test_decode_ldBcd : decodeWord (0b1111#4 ++ 0b0001#4 ++ 0b0011#4 ++ 0b0011#4 : Word) = some (.ldBcd 1) := by decide

theorem test_decode_storeRegs : decodeWord (0b1111#4 ++ 0b0010#4 ++ 0b0101#4 ++ 0b0101#4 : Word) = some (.storeRegs 2) := by decide

theorem test_decode_loadRegs : decodeWord (0b1111#4 ++ 0b0010#4 ++ 0b0110#4 ++ 0b0101#4 : Word) = some (.loadRegs 2) := by decide

/-- R65: one word of every illegal space (T144 to T159). -/
theorem test_decode_illegal :
    [0x0001, 0x00E1, 0x0123, 0x5121, 0x8128, 0x812F, 0x9121, 0xE19F, 0xE000, 0xF100, 0xF175, 0xFFFF, 0x00FF, 0xF285].map
      (fun w => decodeWord (BitVec.ofNat 16 w)) = List.replicate 14 none := by decide

theorem test_decode_rejects_by_name : decode [0x51, 0x21] = .error (.unimplementedOpcode 0x5121) := by decide

theorem test_decode_too_short : decode [0x12] = .error .tooShort := by decide

theorem test_encode_drw : encodeBytes (.drw 0 1 5) = [0xD0, 0x15] := by decide

/-- No two rows of R64 overlap: of every two rows some bit that both masks fix differs. -/
theorem test_rows_do_not_overlap :
    maskMatch.Pairwise (fun p q => (p.2 ^^^ q.2) &&& p.1 &&& q.1 ≠ 0) := by decide

/-! ### One step each (the vectors' ids in the names) -/

theorem test_T1_nop :
    after (start 0x0000) (fun t => pcOf t == 0x202 && !t.fbChanged) = true := by decide

theorem test_T2_ret :
    after ((held (start 0x00EE) 1 0 0x0204)) (fun t => pcOf t == 0x204 && t.sp == 0) = true := by decide

theorem test_T3_ret_empty :
    faults (start 0x00EE) .stackUnderflow = true := by decide

theorem test_T7_jp :
    after (start 0x1FFF) (fun t => pcOf t == 0xFFF) = true := by decide

theorem test_T8_call :
    after (start 0x2300) (fun t => pcOf t == 0x300 && t.sp == 1 && t.stack[0] == 0x202#16) = true := by decide

theorem test_T10_call_full :
    faults (held (start 0x2300) 16 0 0) .stackOverflow = true := by decide

theorem test_T12_seImm :
    after ((start 0x332A).setV 3 0x2A) (fun t => pcOf t == 0x204) = true := by decide

theorem test_T13_seImm_not :
    after ((start 0x332A).setV 3 0x2B) (fun t => pcOf t == 0x202) = true := by decide

theorem test_T15_sneImm :
    after ((start 0x432A).setV 3 0x2B) (fun t => pcOf t == 0x204) = true := by decide

theorem test_T16_seReg :
    after (((start 0x5120).setV 1 7).setV 2 7) (fun t => pcOf t == 0x204) = true := by decide

theorem test_T21_sneReg_same :
    after ((start 0x9440).setV 4 0x99) (fun t => pcOf t == 0x202) = true := by decide

theorem test_T23_jpV0_unmasked :
    after ((start 0xBFFF).setV 0 0xFF) (fun t => pcOf t == 0x10FE) = true := by decide

theorem test_T24_jpV0_uses_V0 :
    after (((start 0xB300).setV 0 1).setV 3 0x55) (fun t => pcOf t == 0x301) = true := by decide

theorem test_T30_ldImm :
    after (start 0x6A7F) (fun t => r t 10 == 0x7F && pcOf t == 0x202) = true := by decide

theorem test_T33_addImm_wraps :
    after ((start 0x7101).setV 1 0xFF) (fun t => r t 1 == 0 && r t 15 == 0) = true := by decide

theorem test_T34_addImm_vf :
    after ((start 0x7F02).setV 15 0xFF) (fun t => r t 15 == 1) = true := by decide

theorem test_T35_ldReg :
    after ((start 0x8210).setV 1 0x33) (fun t => r t 2 == 0x33) = true := by decide

theorem test_T36_or :
    after ((((start 0x8121).setV 1 0xF0).setV 2 0x0F).setV 15 0x5A) (fun t => r t 1 == 0xFF && r t 15 == 0x5A) = true := by decide

theorem test_T37_and :
    after ((((start 0x8122).setV 1 0xF3).setV 2 0x3F).setV 15 0x5A) (fun t => r t 1 == 0x33 && r t 15 == 0x5A) = true := by decide

theorem test_T38_xor :
    after ((((start 0x8123).setV 1 0xFF).setV 2 0x0F).setV 15 0x5A) (fun t => r t 1 == 0xF0 && r t 15 == 0x5A) = true := by decide

theorem test_T40_add :
    after (((start 0x8124).setV 1 0xC8).setV 2 0x64) (fun t => r t 1 == 0x2C && r t 15 == 1) = true := by decide

theorem test_T44_add_into_vf :
    after (((start 0x8F24).setV 15 0xF0).setV 2 0x20) (fun t => r t 15 == 1) = true := by decide

theorem test_T46_sub_borrow :
    after (((start 0x8125).setV 1 0x10).setV 2 0x20) (fun t => r t 1 == 0xF0 && r t 15 == 0) = true := by decide

theorem test_T51_sub_same :
    after ((start 0x8335).setV 3 0x77) (fun t => r t 3 == 0 && r t 15 == 1) = true := by decide

theorem test_T53_shr_ignores_vy :
    after (((start 0x8126).setV 1 0x05).setV 2 0xFF) (fun t => r t 1 == 2 && r t 15 == 1 && r t 2 == 0xFF) = true := by decide

theorem test_T56_shr_vf :
    after ((start 0x8F06).setV 15 0x02) (fun t => r t 15 == 0) = true := by decide

theorem test_T57_subn :
    after (((start 0x8127).setV 1 0x10).setV 2 0x20) (fun t => r t 1 == 0x10 && r t 15 == 1) = true := by decide

theorem test_T58_subn_borrow :
    after (((start 0x8127).setV 1 0x20).setV 2 0x10) (fun t => r t 1 == 0xF0 && r t 15 == 0) = true := by decide

theorem test_T61_shl_ignores_vy :
    after (((start 0x812E).setV 1 0x7F).setV 2 0xFF) (fun t => r t 1 == 0xFE && r t 15 == 0) = true := by decide

theorem test_T62_shl_vf :
    after ((start 0x8F0E).setV 15 0x81) (fun t => r t 15 == 1) = true := by decide

theorem test_T70_ldIndex :
    after (start 0xA2F0) (fun t => t.index == 0x2F0#16) = true := by decide

theorem test_T73_addIndex_past_memory :
    after (((start 0xF21E).setIndex 0x0FFF).setV 2 1) (fun t => t.index == 0x1000#16 && r t 15 == 0) = true := by decide

theorem test_T74_addIndex_wraps :
    after (((start 0xF21E).setIndex 0xFFFF).setV 2 2) (fun t => t.index == 0x0001#16) = true := by decide

theorem test_T77_ldFont_unmasked :
    after ((start 0xF329).setV 3 0xFF) (fun t => t.index == 0x04FB#16) = true := by decide

theorem test_T81_ldBcd :
    after (((start 0xF133).setV 1 0x7B).setIndex 0x0FFD) (fun t => byte t 0xFFD == 1 && byte t 0xFFE == 2 && byte t 0xFFF == 3 && t.index == 0x0FFD#16) = true := by decide

theorem test_T82_ldBcd_out_of_range :
    faults (((start 0xF133).setV 1 0x7B).setIndex 0x0FFE) (.addressOutOfRange 4096) = true := by decide

theorem test_T85_storeRegs :
    after ((((((start 0xF255).setV 0 1).setV 1 2).setV 2 3).setV 3 4).setIndex 0x400) (fun t => [0x400, 0x401, 0x402, 0x403].map (byte t) == [1, 2, 3, 0] && t.index == 0x400#16) = true := by decide

theorem test_T88_storeRegs_out_of_range :
    faults (((start 0xFF55).setV 15 0xEE).setIndex 0x0FF1) (.addressOutOfRange 4096) = true := by decide

theorem test_T89_loadRegs :
    after ((poke (poke (poke (poke (start 0xF265) 0x400 0x0A) 0x401 0x0B) 0x402 0x0C) 0x403 0x0D).setIndex 0x400) (fun t => r t 0 == 0x0A && r t 1 == 0x0B && r t 2 == 0x0C && r t 3 == 0 && t.index == 0x400#16) = true := by decide

theorem test_T92_loadRegs_out_of_range :
    faults ((start 0xF165).setIndex 0x0FFF) (.addressOutOfRange 4096) = true := by decide

theorem test_T100_cls :
    after (litAt (litAt (start 0x00E0) 0 0) 31 63) (fun t => t.disp == Bitmap.clear && !t.fbChanged) = true := by decide

theorem test_T104_drw_wraps_columns :
    after (((poke (start 0xD011) 0x300 0xFF).setIndex 0x300).setV 0 60) (fun t => lit t 0 63 && lit t 0 3 && !lit t 0 4 && !lit t 1 0 && r t 15 == 0 && t.fbChanged) = true := by decide

theorem test_T114_drw_collision :
    after (litAt ((poke (start 0xD011) 0x300 0xC0).setIndex 0x300) 0 1) (fun t => lit t 0 0 && !lit t 0 1 && r t 15 == 1) = true := by decide

theorem test_T113_drw_position_from_vf :
    after ((((poke (start 0xDF11) 0x300 0xC0).setIndex 0x300).setV 15 0x3E).setV 1 2) (fun t => lit t 2 62 && lit t 2 63 && r t 15 == 0) = true := by decide

theorem test_T111_drw_no_rows_no_address_check :
    after (((start 0xD010).setIndex 0x1000).setV 15 1) (fun t => r t 15 == 0 && t.fbChanged) = true := by decide

theorem test_T112_drw_out_of_range :
    faults ((start 0xD011).setIndex 0x1000) (.addressOutOfRange 4096) = true := by decide

theorem test_T123_skp :
    after (((start 0xE49E).setV 4 0x0A).setKey 10 true) (fun t => pcOf t == 0x204) = true := by decide

theorem test_T126_skp_no_such_key :
    faults (((start 0xE49E).setV 4 0xFF).setKey 15 true) (.keyIndexOutOfRange 255) = true := by decide

theorem test_T128_sknp_pressed :
    after (((start 0xE4A1).setV 4 0x0A).setKey 10 true) (fun t => pcOf t == 0x202) = true := by decide

theorem test_T129_sknp_no_such_key :
    faults ((start 0xE4A1).setV 4 0x1A) (.keyIndexOutOfRange 26) = true := by decide

theorem test_T130_ldFromDt :
    after ((start 0xF507).setDt 60) (fun t => r t 5 == 60 && t.dt == 60#8) = true := by decide

theorem test_T131_ldKey_none :
    after ((start 0xF30A).setV 3 0x99) (fun t => pcOf t == 0x200 && r t 3 == 0x99) = true := by decide

theorem test_T132_ldKey_lowest :
    after (((start 0xF30A).setKey 2 true).setKey 7 true) (fun t => r t 3 == 2 && pcOf t == 0x202) = true := by decide

theorem test_T135_ldDt :
    after ((start 0xF515).setV 5 0x3C) (fun t => t.dt == 60#8 && t.st == 0#8) = true := by decide

theorem test_T136_ldSt :
    after ((start 0xF518).setV 5 2) (fun t => t.st == 2#8 && t.dt == 0#8) = true := by decide

theorem test_T140_fetch_last_byte :
    faults (State.reset.setPc 0x0FFF) (.addressOutOfRange 4095) = true := by decide

theorem test_T141_fetch_beyond :
    faults (State.reset.setPc 0x1000) (.addressOutOfRange 4096) = true := by decide

theorem test_T142_fetch_last_word :
    after ((State.reset.setPc 0x0FFE).withFetchWord 16 0x6001) (fun t => r t 0 == 1 && pcOf t == 0x1000) = true := by decide

theorem test_T143_fetch_odd :
    after ((State.reset.setPc 0x0201).withFetchWord 16 0x6A11) (fun t => r t 10 == 0x11 && pcOf t == 0x203) = true := by decide

theorem test_T148_illegal :
    faults (start 0x8128) (.unimplementedOpcode 0x8128) = true := by decide

theorem test_T157_paused :
    after ((State.reset.setPc 0x1000).setPause true) (fun t => pcOf t == 0x1000 && !t.fbChanged) = true := by decide

/-- T120: the byte stored is the step's random byte masked, whatever it is. -/
theorem test_T120_rnd_masks_the_draw :
    step (start 0xC30F) = .next ((((start 0xC30F).setPc 0x202).setV 3 (Config.randomByte 0 &&& 0x0F)).setDraws 1) := rfl

/-- T90, under the assumption that the font is the default table: the first glyph row. -/
theorem test_T90_default_font (h : Config.FontIsDefault) : Memory.read State.reset.mem 0 = 0xF0 := h 0

/-! ### Host operations -/

theorem test_H1_tick : (perform .tickTimers ((State.reset.setDt 2).setSt 1)).2 = .beep true ∧
    (perform .tickTimers ((State.reset.setDt 2).setSt 1)).1.dt = 1 ∧
    (perform .tickTimers ((State.reset.setDt 2).setSt 1)).1.st = 0 := by decide

theorem test_H1_tick_at_zero : (perform .tickTimers State.reset).2 = .beep false ∧
    (perform .tickTimers State.reset).1.dt = 0 := by decide

theorem test_H2_tick_paused :
    perform .tickTimers ((State.reset.setSt 1).setPause true) = ((State.reset.setSt 1).setPause true, .beep false) := by
  decide

theorem test_H3_load_too_large :
    perform (.load (List.replicate 3585 0xAA)) State.reset = (State.reset, .fault (.romTooLarge 3585)) := by
  rw [perform, load, List.length_replicate]
  rfl

theorem test_H5_load_keeps_stale_bytes :
    byte (perform (.load [0x12, 0x00]) (poke State.reset 0x202 0xAA)).1 0x202 = 0xAA ∧
    byte (perform (.load [0x12, 0x00]) (poke State.reset 0x202 0xAA)).1 0x200 = 0x12 := by decide

theorem test_H7_reset_erases :
    perform .reset ((poke State.reset 0x300 0xAA).setV 3 9) = (State.reset, .done) := by decide

theorem test_H8_set_key : (perform (.setKey 15 true) State.reset).1.key[15] = true := by decide

theorem test_H10_fault_leaves_state :
    perform .step (start 0x00EE) = (start 0x00EE, .fault .stackUnderflow) := by decide

/-- Writing the reset content of an address removes its entry. -/
theorem test_memory_canonical : Memory.write (Memory.write [] 0x300 7) 0x300 0 = [] := by decide

/-! ### Witnesses: states and operands that meet the hypotheses of each statement -/

theorem witness_DecodeOfEncodeIsTheInstruction : (Instr.drw 15 0 15).wellFormed = true := by decide

theorem witness_EncodeOfDecodeIsTheWord : decodeWord 0xD01F = some (.drw 0 1 15) := by decide

theorem witness_WordIsRowIffMaskMatches : (1 ≤ 35 ∧ 35 ≤ 35) ∧ 0xF265 &&& (rowMaskMatch 35).1 = (rowMaskMatch 35).2 := by
  decide

theorem witness_IllegalWordsFaultUnchanged :
    ((start 0x0001).Fetches ∧ IllegalWord (start 0x0001).nextWord) ∧ IllegalWord 0x0FFF ∧ IllegalWord 0x5121 ∧
    IllegalWord 0x812D ∧ IllegalWord 0x912F ∧ IllegalWord 0xE19F ∧ IllegalWord 0xFFFF := by
  refine ⟨⟨?_, ?_⟩, ?_, ?_, ?_, ?_, ?_, ?_⟩
  · unfold State.Fetches
    decide
  all_goals
    unfold IllegalWord
    decide

theorem witness_StepRunsTheDecodedInstruction :
    (start 0x6A7F).pause = false ∧ (start 0x6A7F).pc.toNat ≤ 4094 ∧
    decode [Memory.read (start 0x6A7F).mem 0x200, Memory.read (start 0x6A7F).mem 0x201] =
      .ok (.ldImm 10 0x7F, []) := by decide

theorem witness_StepRunsTheDecodedInstruction_last_word :
    ((State.reset.setPc 4094).withFetchWord 16 0x6001).pc.toNat = 4094 ∧
    decode [Memory.read ((State.reset.setPc 4094).withFetchWord 16 0x6001).mem 4094,
      Memory.read ((State.reset.setPc 4094).withFetchWord 16 0x6001).mem 4095] = .ok (.ldImm 0 1, []) := by decide

theorem witness_StepKeepsKeysAndPauseAndCountsNoTimer :
    step (start 0xF515) = .next ((start 0xF515).setPc 0x202) := rfl

theorem witness_NopOnlyAdvancesPc : State.reset.Fetches ∧ State.reset.nextWord = 0x0000 := by
  unfold State.Fetches
  decide

theorem witness_RetPopsTheReturnAddress :
    (held State.reset 1 0 0x204).view .sp = (0 : Fin 16).val + 1 ∧
    (held State.reset 16 15 0x204).view .sp = (15 : Fin 16).val + 1 := by decide

theorem witness_CallPushesThePcAndJumps :
    State.reset.view .sp = (0 : Fin 16).val ∧ (held State.reset 15 0 0).view .sp = (15 : Fin 16).val := by decide

theorem witness_ReturnResumesAfterTheCall : (held State.reset 15 0 0).view .sp < 16 := by decide

theorem witness_RegisterSkips_other_words : (1 ≤ 1 ∧ 1 ≤ 15) ∧ (1 ≤ 15 ∧ 15 ≤ 15) := by decide

theorem witness_SelfJumpChangesNothing :
    (start 0x1200).Runs (.jp 0x200) ∧ (0x200 : Addr12).toNat = (start 0x1200).view .pc := by
  unfold State.Runs State.Fetches
  decide

theorem witness_BcdStoresThreeDigits : (State.reset.setIndex 4093).view .index + 2 ≤ 4095 := by decide

theorem witness_StoreRegistersWritesTheBlock : (State.reset.setIndex 4080).view .index + (15 : Reg).val ≤ 4095 := by decide

theorem witness_LoadRegistersReadsTheBlock : (State.reset.setIndex 4095).view .index + (0 : Reg).val ≤ 4095 := by decide

theorem witness_StoreThenLoadRestoresRegisters :
    (State.reset.setIndex 4080).view .index + (15 : Reg).val ≤ 4095 := by decide

theorem witness_StoreIsSeenByTheNextFetch :
    (((start 0xF155).setIndex 0x202).setV 0 0x62).Runs (.storeRegs 1) ∧ 1 ≤ (1 : Reg).val ∧
    (((start 0xF155).setIndex 0x202).setV 0 0x62).view .index = (((start 0xF155).setIndex 0x202).setV 0 0x62).view .pc + 2 ∧
    (((start 0xF155).setIndex 0x202).setV 0 0x62).view .index + (1 : Reg).val ≤ 4095 ∧
    decodeWord (assemble ((((start 0xF155).setIndex 0x202).setV 0 0x62).reg 0)
      ((((start 0xF155).setIndex 0x202).setV 0 0x62).reg 1)) = some (.ldImm 2 0) := by
  unfold State.Runs State.Fetches
  decide

theorem witness_DrawXorsTheSpriteAndReportsCollision :
    (15 ≤ 15 ∧ ((15 : Nat) = 0 ∨ (State.reset.setIndex 4081).view .index + 15 - 1 ≤ 4095)) ∧
    (0 ≤ 15 ∧ ((0 : Nat) = 0 ∨ (State.reset.setIndex 0xFFFF).view .index + 0 - 1 ≤ 4095)) := by decide

/-- A pixel that a set sprite bit hits and that is set, one that is hit and clear, and one that is not hit. -/
theorem witness_DrawXorsTheSpriteAndReportsCollision_pixels :
    SpriteSets (litAt ((poke State.reset 0x300 0x81).setIndex 0x300) 0 7) 0 1 1 0 7 ∧
    (litAt ((poke State.reset 0x300 0x81).setIndex 0x300) 0 7).view (.pixel 0 7) = 1 ∧
    SpriteSets (litAt ((poke State.reset 0x300 0x81).setIndex 0x300) 0 7) 0 1 1 0 0 ∧
    ¬ SpriteSets (litAt ((poke State.reset 0x300 0x81).setIndex 0x300) 0 7) 0 1 1 1 0 := by
  refine ⟨⟨0, 7, by decide⟩, by decide, ⟨0, 0, by decide⟩, ?_⟩
  rintro ⟨row, col, hrow, -, hr, -⟩
  obtain rfl : row = 0 := by omega
  exact absurd hr (by decide)

/-- A display on which a draw hits no set pixel. -/
theorem witness_DrawXorsTheSpriteAndReportsCollision_no_collision :
    ∀ r c, SpriteSets State.reset 0 1 0 r c → State.reset.view (.pixel r c) = 0 := by
  rintro r c ⟨row, col, hrow, -⟩
  exact absurd hrow (by omega)

theorem witness_DrawingTwiceRestoresTheDisplay :
    15 ≤ 15 ∧ (0 : Reg) ≠ VF ∧ (14 : Reg) ≠ VF ∧
    ((15 : Nat) = 0 ∨ (State.reset.setIndex 4081).view .index + 15 - 1 ≤ 4095) := by decide

theorem witness_KeySkipsReadTheKeyLevel :
    (State.reset.setV 4 15).view (.v 4) = (15 : Key).val ∧ State.reset.view (.v 4) = (0 : Key).val := by decide

theorem witness_KeyWaitTakesLowestKeyOrRewinds :
    ((State.reset.setKey 15 true).view (.key 15) = 1 ∧ ∀ j : Key, j < 15 → (State.reset.setKey 15 true).view (.key j) = 0) ∧
    ((start 0xF30A).Runs (.ldKey 3) ∧ ∀ k : Key, (start 0xF30A).view (.key k) = 0) := by
  unfold State.Runs State.Fetches
  decide

theorem witness_InstructionsFaultExactlyAsListed :
    faultIn (.ldBcd 1) (State.reset.setIndex 4093) = none ∧
    faultIn (.ldBcd 1) (State.reset.setIndex 4094) = some (.addressOutOfRange 4096) ∧
    faultIn (.drw 0 1 0) (State.reset.setIndex 0xFFFF) = none ∧
    faultIn .ret State.reset = some .stackUnderflow := by decide

theorem witness_FaultingOperationLeavesTheState :
    (perform .step (start 0x00EE)).2 = .fault .stackUnderflow ∧
    (perform (.load (List.replicate 3585 0)) State.reset).2 = .fault (.romTooLarge 3585) := by
  refine ⟨by decide, ?_⟩
  rw [perform, load, List.length_replicate]
  rfl

theorem witness_InstructionsWriteOnlyTheirParts : exec (.ldImm 1 7) State.reset = .next (State.reset.setV 1 7) := rfl

theorem witness_SoundTimerIsNeverRead : ∀ x, Instr.ldDt 1 ≠ .ldSt x := nofun

theorem witness_PartsDetermineTheState :
    Memory.wf (poke State.reset 0x300 7).mem ∧ ∀ p, (poke State.reset 0x300 7).view p = (poke State.reset 0x300 7).view p :=
  ⟨by decide, fun _ => rfl⟩

theorem witness_LoadCopiesTheRomOrRejectsIt :
    (List.replicate 3584 (0xAA : Byte)).length ≤ 3584 ∧ (List.replicate 3585 (0xAA : Byte)).length > 3584 := by
  rw [List.length_replicate, List.length_replicate]
  decide

theorem witness_TickCountsBothTimersDown :
    (State.reset.setPause true).pause = true ∧ State.reset.pause = false := by decide

theorem witness_PauseGatesStepAndTick : (State.reset.setPause true).pause = true := by decide

/-- A state that meets the invariant with the extreme values of R33: `pc` 4350, return addresses 2 and 4096. -/
theorem witness_EveryOperationKeepsTheInvariant :
    ((held (held State.reset 1 0 2) 2 1 4096).setPc 4350).Inv := by
  unfold State.Inv
  decide

theorem witness_StepKeepsTheInvariant :
    ((held (held State.reset 1 0 2) 2 1 4096).setPc 4094).Inv ∧
    after ((held (held State.reset 1 0 2) 2 1 4096).setPc 4094) (fun t => pcOf t == 4096) = true := by
  unfold State.Inv
  decide

theorem witness_ReachableStatesMeetTheBounds :
    (performAll [.load [0x1F, 0xFF], .step] State.reset).Reachable ∧
    faults (performAll [.load [0x1F, 0xFF], .step] State.reset) (.addressOutOfRange 4095) = true :=
  ⟨⟨_, rfl⟩, by decide⟩

end Sys2Proof.Tests
end

section
/-! SUPPORT. What an instruction that completes does to memory, `pc` and the stack, said once for all 35, and from it the
invariant of 10_state.md R33: every step keeps it, every operation of the host keeps it, reset meets it. -/

namespace Sys2Proof.Machine

/-! ### What the shared operations answer, read backwards -/

/-- A checked write that succeeds keeps the canonical form: its range lies in memory, or it writes nothing. -/
theorem Memory.wf_of_memWrite {m m' : Mem} {base : Nat} {bs : List Byte} (hm : Memory.wf m)
    (h : memWrite m base bs = .ok m') : Memory.wf m' := by
  rw [memWrite_eq] at h
  split at h
  · rename_i hr
    obtain rfl := Except.ok.inj h
    rcases hr with h0 | hr
    · rw [List.eq_nil_of_length_eq_zero h0]
      exact hm
    · exact Memory.wf_writeBytes hm hr
  · cases h

/-- A push that succeeds has room and fills the slot that `sp` named. -/
theorem State.push_ok {s u : State} {w : Word} (h : s.push w = .ok u) :
    ∃ hs : s.sp.val < 16,
      u = (s.setStack (s.stack.set s.sp.val w)).setSp ⟨s.sp.val + 1, Nat.succ_lt_succ hs⟩ := by
  by_cases hs : s.sp.val < 16
  · rw [State.push_room hs] at h
    exact ⟨hs, (Except.ok.inj h).symm⟩
  · rw [State.push_full (by omega)] at h
    cases h

/-- A pop that succeeds has an entry and answers the topmost one. -/
theorem State.pop_ok {s : State} {p : Word × State} (h : s.pop = .ok p) :
    ∃ hs : 0 < s.sp.val, p = (s.stack[s.sp.val - 1], s.setSp ⟨s.sp.val - 1, by omega⟩) := by
  by_cases hs : 0 < s.sp.val
  · rw [State.pop_held hs] at h
    exact ⟨hs, (Except.ok.inj h).symm⟩
  · rw [State.pop_empty (by omega)] at h
    cases h

/-! ### What an instruction does to memory, `pc` and the stack -/

/-- The ways in which an instruction that completes treats memory, `pc` and the stack (40_step_cycle_and_control.md
R82 to R90; 42_index_and_memory.md R123, R124; 44_keypad_timer_random.md R144). -/
inductive ExecEffect (s : State) : State → Prop where
  /-- It leaves all three alone. -/
  | keeps {t : State} (mem : t.mem = s.mem) (pc : t.pc = s.pc) (stack : t.stack = s.stack) (sp : t.sp = s.sp) :
    ExecEffect s t
  | skips (c : Bool) : ExecEffect s (s.skipIf c)
  | rewinds : ExecEffect s s.rewind
  /-- It jumps, at the highest to `V0 + nnn = 255 + 4095`. -/
  | jumps (w : Word) (target : w.toNat ≤ 4350) : ExecEffect s (s.setPc w)
  | calls {u : State} (push : s.push s.pc = .ok u) (nnn : Addr12) : ExecEffect s (u.setPc (literalWord nnn))
  | returns {p : Word × State} (pop : s.pop = .ok p) : ExecEffect s (p.2.setPc p.1)
  | stores {m : Mem} {bs : List Byte} (write : memWrite s.mem (baseAddr s) bs = .ok m) : ExecEffect s (s.setMem m)

theorem literalWord_toNat (nnn : Addr12) : (literalWord nnn).toNat = nnn.toNat := by
  have := nnn.isLt
  rw [literalWord, BitVec.toNat_setWidth, Nat.mod_eq_of_lt (by omega)]

theorem literalWord_le (nnn : Addr12) : (literalWord nnn).toNat ≤ 4350 := by
  have := nnn.isLt
  rw [literalWord_toNat]
  omega

theorem jpV0_target_le (b : Byte) (nnn : Addr12) : (BitVec.ofNat 16 (b.toNat + nnn.toNat)).toNat ≤ 4350 := by
  have := b.isLt
  have := nnn.isLt
  rw [BitVec.toNat_ofNat, Nat.mod_eq_of_lt (by omega)]
  omega

/-- Every instruction that completes has one of the effects above. -/
theorem exec_effect {i : Instr} {s t : State} (h : exec i s = .next t) : ExecEffect s t := by
  cases i with
  | nop | cls | ldImm | addImm | ldReg | orReg | andReg | xorReg | addReg | subReg | shr | subnReg | shl
  | ldIndex | addIndex | ldFont | rnd | ldFromDt | ldDt | ldSt =>
    cases h
    exact .keeps rfl rfl rfl rfl
  | seImm | sneImm | seReg | sneReg =>
    cases h
    exact .skips _
  | jp nnn =>
    cases h
    exact .jumps _ (literalWord_le nnn)
  | jpV0 nnn =>
    cases h
    exact .jumps _ (jpV0_target_le _ nnn)
  | call nnn =>
    obtain ⟨u, hu, hk⟩ := orRaise_next h
    cases hk
    exact .calls hu nnn
  | ret =>
    obtain ⟨p, hp, hk⟩ := orRaise_next h
    cases hk
    exact .returns hp
  | ldBcd | storeRegs =>
    obtain ⟨m, hm, hk⟩ := orRaise_next h
    cases hk
    exact .stores hm
  | drw | loadRegs =>
    obtain ⟨_, _, hk⟩ := orRaise_next h
    cases hk
    exact .keeps rfl rfl rfl rfl
  | skp | sknp =>
    obtain ⟨_, _, hk⟩ := orRaise_next h
    cases hk
    exact .skips _
  | ldKey x =>
    simp only [exec, execLdKey] at h
    split at h
    · cases h
      exact .keeps rfl rfl rfl rfl
    · cases h
      exact .rewinds

/-! ### Held return addresses (R25, R33) -/

/-- A return address that a `CALL` of a reachable state can have pushed. -/
def ReturnAddress (w : Word) : Prop := 2 ≤ w.toNat ∧ w.toNat ≤ 4096

/-- Every held slot has one. -/
def State.HoldsReturns (s : State) : Prop := ∀ k : Fin 16, k.val < s.sp.val → ReturnAddress s.stack[k.val]

theorem State.HoldsReturns.push {s u : State} {w : Word} (hs : s.HoldsReturns) (hw : ReturnAddress w)
    (h : s.push w = .ok u) : u.HoldsReturns := by
  obtain ⟨hsp, rfl⟩ := State.push_ok h
  intro k hk
  simp only [State.setSp_sp, State.setSp_stack, State.setStack_stack, Vector.getElem_set] at hk ⊢
  split
  · exact hw
  · exact hs k (by omega)

theorem State.HoldsReturns.pop {s : State} {p : Word × State} (hs : s.HoldsReturns) (h : s.pop = .ok p) :
    ReturnAddress p.1 ∧ p.2.HoldsReturns := by
  obtain ⟨hsp, rfl⟩ := State.pop_ok h
  have hle := s.sp.isLt
  refine ⟨hs ⟨s.sp.val - 1, by omega⟩ (Nat.sub_lt hsp Nat.one_pos), fun k hk => hs k ?_⟩
  simp only [State.setSp_sp] at hk
  omega

/-! ### The invariant (R33) -/

/-- The invariant speaks of memory, `pc`, the slots and `sp` alone. -/
theorem State.Inv.congr {s t : State} (h : s.Inv) (mem : t.mem = s.mem) (pc : t.pc = s.pc) (stack : t.stack = s.stack)
    (sp : t.sp = s.sp) : t.Inv := by
  unfold State.Inv
  rw [mem, pc, stack, sp]
  exact h

/-- A state in which an instruction starts to execute: the fetch has moved `pc` into 2..4096 (R81). -/
structure State.Executes (s : State) : Prop where
  wf : Memory.wf s.mem
  pc : ReturnAddress s.pc
  held : s.HoldsReturns

theorem State.Inv.executes {s : State} (h : s.Inv) (hpc : s.pc.toNat ≤ 4094) : (s.advance.setFb false).Executes := by
  obtain ⟨hwf, -, hheld⟩ := h
  have hadd : (s.pc + 2).toNat = s.pc.toNat + 2 := by
    rw [BitVec.toNat_add, show (2 : Word).toNat = 2 from rfl, Nat.mod_eq_of_lt (by omega)]
  refine ⟨hwf, ?_, hheld⟩
  simp only [ReturnAddress, State.setFb_pc, State.advance_pc, hadd]
  omega

theorem State.Executes.inv {s : State} (h : s.Executes) : s.Inv :=
  ⟨h.wf, Nat.le_trans h.pc.2 (by decide), h.held⟩

/-- Changing `pc` alone keeps the invariant where the new `pc` is in range. -/
theorem State.Executes.inv_setPc {s : State} (h : s.Executes) {w : Word} (hw : w.toNat ≤ 4350) : (s.setPc w).Inv :=
  ⟨h.wf, hw, h.held⟩

/-- Every effect of an instruction leads from an executing state to one that meets the invariant. -/
theorem ExecEffect.inv {s t : State} (e : ExecEffect s t) (h : s.Executes) : t.Inv := by
  obtain ⟨hlow, hhigh⟩ := h.pc
  cases e with
  | keeps mem pc stack sp => exact h.inv.congr mem pc stack sp
  | skips c =>
    cases c with
    | false => exact h.inv
    | true => exact h.inv_setPc (by bv_omega)
  | rewinds => exact h.inv_setPc (by bv_omega)
  | jumps w target => exact h.inv_setPc target
  | @calls u push nnn =>
    have hheld := h.held.push h.pc push
    obtain ⟨_, rfl⟩ := State.push_ok push
    exact ⟨h.wf, literalWord_le nnn, hheld⟩
  | @returns p pop =>
    obtain ⟨hret, hheld⟩ := h.held.pop pop
    obtain ⟨_, rfl⟩ := State.pop_ok pop
    exact ⟨h.wf, Nat.le_trans hret.2 (by decide), hheld⟩
  | stores write =>
    obtain ⟨-, hpc, hheld⟩ := h.inv
    exact ⟨Memory.wf_of_memWrite h.wf write, hpc, hheld⟩

theorem State.Inv.step {s t : State} (hs : s.Inv) (h : step s = .next t) : t.Inv := by
  rcases step_next h with ⟨-, rfl⟩ | ⟨-, hpc, i, -, hexec⟩
  · exact hs.congr rfl rfl rfl rfl
  · exact (exec_effect hexec).inv (hs.executes hpc)

theorem State.reset_inv : State.reset.Inv :=
  ⟨State.reset_mem_wf, by decide, fun k hk => absurd hk (Nat.not_lt_zero k.val)⟩

theorem State.Inv.load {s t : State} {bytes : List Byte} (hs : s.Inv) (h : load bytes s = .next t) : t.Inv := by
  obtain ⟨hwf, hpc, hheld⟩ := hs
  unfold Machine.load at h
  split at h
  · rename_i hlen
    cases h
    exact ⟨Memory.wf_writeBytes hwf (Nat.add_le_add_left hlen 0x200), hpc, hheld⟩
  · cases h

theorem State.Inv.tickTimers {s : State} (hs : s.Inv) : (tickTimers s).1.Inv := by
  unfold Machine.tickTimers
  split
  · exact hs
  · exact hs.congr rfl rfl rfl rfl

/-- Apply or reject: what a result and the state before it both meet, the state after `settle` meets (R151). -/
theorem settle_inv {s : State} {r : Result} (report : State → Response) (hs : s.Inv)
    (hr : ∀ t, r = .next t → t.Inv) : (settle s r report).1.Inv := by
  cases r with
  | next t => exact hr t rfl
  | fault | refused => exact hs

theorem State.Inv.perform {s : State} (hs : s.Inv) (o : Operation) : (perform o s).1.Inv := by
  cases o with
  | create | reset => exact State.reset_inv.congr rfl rfl rfl rfl
  | load bytes => exact settle_inv _ hs fun _ => hs.load
  | step => exact settle_inv _ hs fun _ => hs.step
  | tickTimers => exact hs.tickTimers
  | display | readPause => exact hs
  | setKey | writePause => exact hs.congr rfl rfl rfl rfl

end Sys2Proof.Machine

namespace Sys2Proof

open Machine

/-- Settles O55: each effect an instruction can have keeps the invariant, since the fetch left `pc` in 2..4096. -/
theorem stepKeepsTheInvariant : Obligations.StepKeepsTheInvariant := fun _ _ hs h => hs.step h

/-- Settles O56, operation by operation; a rejected one gives the state back. -/
theorem everyOperationKeepsTheInvariant : Obligations.EveryOperationKeepsTheInvariant := fun o _ hs => hs.perform o

/-- Settles O54: reset memory lists nothing, `pc` is 0x200 and no return address is held. -/
theorem resetMeetsTheInvariant : Obligations.ResetMeetsTheInvariant := State.reset_inv

end Sys2Proof
end


section
/-! SUPPORT. Who writes what (10_state.md R34): the frame of a sprite, of a push and of a pop, and from them the frame of
each instruction. -/

namespace Sys2Proof

open Machine

/-! ### The frame of a sprite (43_display.md R131) -/

/-- A sprite of any number of rows changes no pixel that none of its bits lies over. -/
theorem drawRows_pixel (vx vy row : Nat) (bs : List Byte) (a : Bitmap × Bool) {r : Row} {c : Col}
    (h : ∀ k col, k < bs.length → col < 8 → ¬(r.val = (vy + (row + k)) % 32 ∧ c.val = (vx + col) % 64)) :
    Bitmap.pixel (drawRows vx vy row bs a).1 r c = Bitmap.pixel a.1 r c := by
  induction bs generalizing row a with
  | nil => rfl
  | cons b bs ih =>
    have hfirst : ¬ HitRow vx vy row b 8 r c := fun ⟨col, hcol, _, hr, hc⟩ => h 0 col (by simp) hcol ⟨hr, hc⟩
    have hrest : Bitmap.pixel (drawRows vx vy (row + 1) bs (drawRow vx vy row b a)).1 r c =
        Bitmap.pixel (drawRow vx vy row b a).1 r c :=
      ih (row + 1) _ fun k col hk hcol hp =>
        h (k + 1) col (by simpa using hk) hcol (by rwa [Nat.add_assoc, Nat.add_comm 1 k] at hp)
    exact hrest.trans ((drawRow_draws vx vy row b a).keeps r c hfirst)

theorem onlyChanges_drawRows (s : State) (vx vy : Nat) (bs : List Byte) (f : Bool) :
    OnlyChanges s (s.setDisp (drawRows vx vy 0 bs (s.disp, f)).1) fun p =>
      ∃ r c, UnderSprite vx vy bs.length r c ∧ p = .pixel r c := by
  intro p hp
  cases p with
  | pixel r c =>
    refine congrArg Bool.toNat (drawRows_pixel vx vy 0 bs (s.disp, f) fun k col hk hcol ⟨hr, hc⟩ => ?_)
    exact hp ⟨r, c, ⟨k, col, hk, hcol, by rwa [Nat.zero_add] at hr, hc⟩, rfl⟩
  | _ => rfl

/-! ### The frames of the accesses that can fault -/

/-- What a checked read answers has the length asked for. -/
theorem memRead_length {m : Mem} {base n : Nat} {bs : List Byte} (h : memRead m base n = .ok bs) : bs.length = n := by
  rw [memRead_eq] at h
  split at h
  · obtain rfl := Except.ok.inj h
    exact Memory.readBytes_length m base n
  · cases h

/-- A checked write changes the bytes of its range alone. -/
theorem onlyChanges_memWrite {s : State} {base : Nat} {bs : List Byte} {m : Mem} (h : memWrite s.mem base bs = .ok m) :
    OnlyChanges s (s.setMem m) fun p => ∃ k, k < bs.length ∧ p = .mem (base + k) := by
  rw [memWrite_eq] at h
  split at h
  · obtain rfl := Except.ok.inj h
    exact onlyChanges_writeBytes s base bs
  · cases h

/-- A push changes `sp` and the one slot that `sp` named (R25, D4). -/
theorem onlyChanges_push {s u : State} {w : Word} (h : s.push w = .ok u) :
    OnlyChanges s u fun p => p = .sp ∨ ∃ k : Fin 16, k.val = s.sp.val ∧ p = .slot k := by
  obtain ⟨hsp, rfl⟩ := State.push_ok h
  intro p hp
  cases p with
  | slot k =>
    have hk : s.sp.val ≠ k.val := fun e => hp (.inr ⟨k, e.symm, rfl⟩)
    exact congrArg BitVec.toNat (Vector.getElem_set_ne hsp _ hk)
  | sp => exact absurd (.inl rfl) hp
  | _ => rfl

/-- A pop changes `sp` alone (R25, D4). -/
theorem onlyChanges_pop {s : State} {q : Word × State} (h : s.pop = .ok q) :
    OnlyChanges s q.2 fun p => p = .sp := by
  obtain ⟨_, rfl⟩ := State.pop_ok h
  exact onlyChanges_setSp s _

/-! ### The frame of each instruction (R34) -/

/-- `CALL` writes `pc` and what a push writes. -/
theorem execCall_frame {nnn : Addr12} {s t : State} (h : execCall nnn s = .next t) :
    OnlyChanges s t (Writes (.call nnn) s) := by
  obtain ⟨u, hu, hk⟩ := orRaise_next h
  cases hk
  refine ((onlyChanges_push hu).trans (onlyChanges_setPc u _)).mono ?_
  rintro p ((hsp | hslot) | hpc)
  · exact .inr (.inl hsp)
  · exact .inr (.inr hslot)
  · exact .inl hpc

/-- `RET` writes `pc` and `sp`. -/
theorem execRet_frame {s t : State} (h : execRet s = .next t) : OnlyChanges s t (Writes .ret s) := by
  obtain ⟨q, hq, hk⟩ := orRaise_next h
  cases hk
  exact ((onlyChanges_pop hq).trans (onlyChanges_setPc q.2 _)).mono fun _ => Or.symm

/-- `DRW` writes the pixels under its sprite, `VF` and `fb_changed`. -/
theorem execDrw_frame {x y : Reg} {n : Nat} {s t : State} (h : execDrw x y n s = .next t) :
    OnlyChanges s t (Writes (.drw x y n) s) := by
  obtain ⟨rows, hrows, hk⟩ := orRaise_next h
  cases hk
  obtain rfl := memRead_length hrows
  refine (((onlyChanges_drawRows s _ _ rows false).trans (onlyChanges_setV _ VF _)).trans
    (onlyChanges_setFb _ true)).mono ?_
  rintro p ((hpixel | hvf) | hfb)
  · exact .inr (.inr hpixel)
  · exact .inl hvf
  · exact .inr (.inl hfb)

/-- `LD Vx, [I]` writes the registers up to `V[x]`. -/
theorem execLoadRegs_frame {x : Reg} {s t : State} (h : execLoadRegs x s = .next t) :
    OnlyChanges s t (Writes (.loadRegs x) s) := by
  obtain ⟨bytes, hbytes, hk⟩ := orRaise_next h
  cases hk
  refine (onlyChanges_loadInto s bytes).mono ?_
  rintro p ⟨k, hlt, rfl⟩
  rw [memRead_length hbytes] at hlt
  exact ⟨k, Nat.le_of_lt_succ hlt, rfl⟩

/-- `LD [I], Vx` writes the bytes from `I` to `I + x`. -/
theorem execStoreRegs_frame {x : Reg} {s t : State} (h : execStoreRegs x s = .next t) :
    OnlyChanges s t (Writes (.storeRegs x) s) := by
  obtain ⟨m, hm, hk⟩ := orRaise_next h
  cases hk
  refine (onlyChanges_memWrite hm).mono ?_
  rintro p ⟨k, hlt, rfl⟩
  rw [regsUpTo_length] at hlt
  exact ⟨k, Nat.le_of_lt_succ hlt, rfl⟩

/-- `LD Vx, K` writes `V[x]` where a key is pressed and rewinds `pc` where none is. -/
theorem execLdKey_frame {x : Reg} {s t : State} (h : execLdKey x s = .next t) :
    OnlyChanges s t (Writes (.ldKey x) s) := by
  unfold execLdKey at h
  split at h
  · cases h
    exact (onlyChanges_setV s x _).mono fun _ => .inr
  · cases h
    exact (onlyChanges_setPc s _).mono fun _ => .inl

theorem exec_frame {i : Instr} {s t : State} (h : exec i s = .next t) : OnlyChanges s t (Writes i s) := by
  cases i with
  | nop =>
    cases h
    exact OnlyChanges.refl s _
  | ldImm | addImm | ldReg | orReg | andReg | xorReg | ldFromDt =>
    cases h
    exact onlyChanges_setV s _ _
  | addReg | subReg | shr | subnReg | shl =>
    cases h
    exact onlyChanges_setResultFlag s _ _ _
  | rnd x nn =>
    cases h
    exact (onlyChanges_setV s x _).trans (onlyChanges_setDraws _ _)
  | seImm | sneImm | seReg | sneReg =>
    cases h
    exact onlyChanges_skipIf s _
  | skp | sknp =>
    obtain ⟨_, _, hk⟩ := orRaise_next h
    cases hk
    exact onlyChanges_skipIf s _
  | jp | jpV0 =>
    cases h
    exact onlyChanges_setPc s _
  | ldIndex | addIndex | ldFont =>
    cases h
    exact onlyChanges_setIndex s _
  | ldDt =>
    cases h
    exact onlyChanges_setDt s _
  | ldSt =>
    cases h
    exact onlyChanges_setSt s _
  | cls =>
    cases h
    exact onlyChanges_setDisp s _
  | ldBcd =>
    obtain ⟨m, hm, hk⟩ := orRaise_next h
    cases hk
    exact onlyChanges_memWrite hm
  | storeRegs => exact execStoreRegs_frame h
  | loadRegs => exact execLoadRegs_frame h
  | drw => exact execDrw_frame h
  | call => exact execCall_frame h
  | ret => exact execRet_frame h
  | ldKey => exact execLdKey_frame h

/-- Settles O43, instruction by instruction: the frame of each is put together from the frames of its updates. -/
theorem instructionsWriteOnlyTheirParts : Obligations.InstructionsWriteOnlyTheirParts := fun _ _ _ h => exec_frame h

end Sys2Proof
end


section
/-! SUPPORT. No instruction reads `ST` (10_state.md R26): each part of the model that an instruction uses is the same
with another `ST`, and so is the instruction. -/

namespace Sys2Proof.Machine

/-- A result whose state, if it has one, is given another `ST`. -/
def withSt (b : Byte) : Result → Result
  | .next t => .next (t.setSt b)
  | .fault f => .fault f
  | .refused r => .refused r

/-- Raising or going on is the same with another `ST` where the continuation is. -/
theorem orRaise_withSt {α : Type} {b : Byte} {e : Except Fault α} {k k' : α → Result}
    (h : ∀ a, k' a = withSt b (k a)) : orRaise e k' = withSt b (orRaise e k) := by
  cases e with
  | error f => rfl
  | ok a => exact h a

theorem State.skipIf_setSt (s : State) (b : Byte) (c : Bool) : (s.setSt b).skipIf c = (s.skipIf c).setSt b := by
  cases c <;> rfl

theorem execRet_setSt (s : State) (b : Byte) : execRet (s.setSt b) = withSt b (execRet s) := by
  unfold execRet
  by_cases h : 0 < s.sp.val
  · rw [State.pop_held h, State.pop_held (s := s.setSt b) h]
    rfl
  · have h0 : s.sp.val = 0 := by omega
    rw [State.pop_empty h0, State.pop_empty (s := s.setSt b) h0]
    rfl

theorem execCall_setSt (nnn : Addr12) (s : State) (b : Byte) :
    execCall nnn (s.setSt b) = withSt b (execCall nnn s) := by
  unfold execCall
  by_cases h : s.sp.val < 16
  · rw [State.push_room h, State.push_room (s := s.setSt b) h]
    rfl
  · have hfull : s.sp.val = 16 := by omega
    rw [State.push_full hfull, State.push_full (s := s.setSt b) hfull]
    rfl

theorem execLdKey_setSt (x : Reg) (s : State) (b : Byte) : execLdKey x (s.setSt b) = withSt b (execLdKey x s) := by
  have hkey : (s.setSt b).lowestKey = s.lowestKey := rfl
  unfold execLdKey
  rw [hkey]
  cases s.lowestKey <;> rfl

/-- Every instruction but `LD ST, Vx` does the same whatever `ST` holds, and keeps it. -/
theorem exec_setSt {i : Instr} (hi : ∀ x, i ≠ .ldSt x) (s : State) (b : Byte) :
    exec i (s.setSt b) = withSt b (exec i s) := by
  cases i with
  | ldSt x => exact absurd rfl (hi x)
  | nop | cls | jp | jpV0 | ldImm | addImm | ldReg | orReg | andReg | xorReg | addReg | subReg | shr | subnReg | shl
  | ldIndex | addIndex | ldFont | rnd | ldFromDt | ldDt => rfl
  | seImm | sneImm | seReg | sneReg => exact congrArg Host.Outcome.next (s.skipIf_setSt b _)
  | skp | sknp => exact orRaise_withSt fun _ => congrArg Host.Outcome.next (s.skipIf_setSt b _)
  | ldBcd | storeRegs | loadRegs | drw => exact orRaise_withSt fun _ => rfl
  | ret => exact execRet_setSt s b
  | call nnn => exact execCall_setSt nnn s b
  | ldKey x => exact execLdKey_setSt x s b

end Sys2Proof.Machine

namespace Sys2Proof

open Machine

/-- Settles O44, instruction by instruction. -/
theorem soundTimerIsNeverRead : Obligations.SoundTimerIsNeverRead := by
  intro i s b hi
  rw [exec_setSt hi]
  cases exec i s <;> rfl

end Sys2Proof
end


section
/-! SUPPORT. The parts are the whole state: two states in canonical form that agree on every part are equal
(10_state.md R20, R31); and what each part reads as in the initial condition (R32). -/

namespace Sys2Proof

open Machine

theorem bool_eq_of_toNat_eq {a b : Bool} (h : a.toNat = b.toNat) : a = b :=
  Bool.eq_iff_iff.mpr (by rw [← Bool.toNat_eq_one, h, Bool.toNat_eq_one])

/-- The two states read the same at every part. -/
def SameParts (s t : State) : Prop := ∀ p, s.view p = t.view p

namespace SameParts

variable {s t : State}

theorem mem_eq (h : SameParts s t) (hs : Memory.wf s.mem) (ht : Memory.wf t.mem) : s.mem = t.mem :=
  Memory.eq_of_read_eq hs ht fun a => BitVec.eq_of_toNat_eq (h (.mem a))

theorem v_eq (h : SameParts s t) : s.v = t.v :=
  Vector.ext fun k hk => BitVec.eq_of_toNat_eq (h (.v ⟨k, hk⟩))

theorem stack_eq (h : SameParts s t) : s.stack = t.stack :=
  Vector.ext fun k hk => BitVec.eq_of_toNat_eq (h (.slot ⟨k, hk⟩))

theorem disp_eq (h : SameParts s t) : s.disp = t.disp :=
  Vector.ext fun r hr => Vector.ext fun c hc => bool_eq_of_toNat_eq (h (.pixel ⟨r, hr⟩ ⟨c, hc⟩))

theorem key_eq (h : SameParts s t) : s.key = t.key :=
  Vector.ext fun k hk => bool_eq_of_toNat_eq (h (.key ⟨k, hk⟩))

end SameParts

/-- Settles O45: each field is determined by the parts that read it, memory because its form is canonical. -/
theorem partsDetermineTheState : Obligations.PartsDetermineTheState := by
  intro s t hs ht hparts
  have h : SameParts s t := hparts
  cases s
  cases t
  rw [State.mk.injEq]
  exact ⟨h.mem_eq hs ht, h.v_eq, BitVec.eq_of_toNat_eq (h .index), BitVec.eq_of_toNat_eq (h .pc), h.stack_eq,
    Fin.ext (h .sp), BitVec.eq_of_toNat_eq (h .dt), BitVec.eq_of_toNat_eq (h .st), h.disp_eq, h.key_eq,
    bool_eq_of_toNat_eq (h .pause), bool_eq_of_toNat_eq (h .fbChanged), h .draws⟩

/-! ### The initial condition (R32) -/

/-- Reset memory reads as the font in its first 80 bytes and as zero above. -/
theorem reset_view_mem (a : Nat) :
    State.reset.view (.mem a) = if h : a < 80 then (Config.font ⟨a, h⟩).toNat else 0 := by
  rw [State.view_mem]
  unfold State.reset Memory.read Memory.unlisted
  split <;> rfl

theorem reset_reg (k : Reg) : State.reset.reg k = 0 := Vector.getElem_replicate k.isLt

theorem reset_slot (k : Fin 16) : State.reset.stack[k.val] = 0 := Vector.getElem_replicate k.isLt

theorem reset_pressed (k : Key) : State.reset.pressed k = false := Vector.getElem_replicate k.isLt

theorem reset_pixel (r : Row) (c : Col) : Bitmap.pixel State.reset.disp r c = false := Bitmap.pixel_clear r c

/-- Settles O46, part by part. -/
theorem resetStateIsTheInitialCondition : Obligations.ResetStateIsTheInitialCondition :=
  ⟨reset_view_mem, fun k => congrArg BitVec.toNat (reset_reg k), rfl, rfl,
    fun k => congrArg BitVec.toNat (reset_slot k), rfl, rfl, rfl,
    fun r c => congrArg Bool.toNat (reset_pixel r c), fun k => congrArg Bool.toNat (reset_pressed k), rfl⟩

end Sys2Proof
end


section
/-! SUPPORT. Which fault an instruction raises (60_exceptions.md R150), and the bounds of every state a host can reach
(10_state.md R33). -/

namespace Sys2Proof

open Machine

/-! ### An instruction completes or raises the fault that R150 lists -/

/-- The instruction completes where `faultIn` lists no fault, and else raises the fault listed. -/
def AnswersAsListed (i : Instr) (s : State) : Prop :=
  (faultIn i s = none ∧ ∃ t, exec i s = .next t) ∨ ∃ f, faultIn i s = some f ∧ exec i s = .fault f

/-- An instruction that first makes one check: it goes on where the check succeeds and the list has no fault, and it
raises the check's fault where the list has that one. -/
theorem answersAsListed_of_check {i : Instr} {s : State} {α : Type} {e : Except Fault α} {k : α → State}
    (hexec : exec i s = orRaise e fun a => .next (k a)) {c : Prop} [Decidable c] {f : Fault}
    (hlist : faultIn i s = if c then some f else none) (hok : ¬c → ∃ a, e = .ok a) (herr : c → e = .error f) :
    AnswersAsListed i s := by
  by_cases hc : c
  · exact .inr ⟨f, by rw [hlist, if_pos hc], by rw [hexec, herr hc, orRaise_error]⟩
  · obtain ⟨a, ha⟩ := hok hc
    exact .inl ⟨by rw [hlist, if_neg hc], k a, by rw [hexec, ha, orRaise_ok]⟩

theorem memRead_exists_ok (m : Mem) {base n : Nat} (h : n = 0 ∨ base + n ≤ 4096) : ∃ bs, memRead m base n = .ok bs :=
  ⟨_, (memRead_eq m base n).trans (if_pos h)⟩

theorem memRead_error (m : Mem) {base n : Nat} (h : ¬(n = 0 ∨ base + n ≤ 4096)) :
    memRead m base n = .error (.addressOutOfRange (max base 4096)) :=
  (memRead_eq m base n).trans (if_neg h)

theorem memWrite_exists_ok (m : Mem) {base : Nat} {bs : List Byte} (h : bs.length = 0 ∨ base + bs.length ≤ 4096) :
    ∃ m', memWrite m base bs = .ok m' :=
  ⟨_, (memWrite_eq m base bs).trans (if_pos h)⟩

theorem memWrite_error (m : Mem) {base : Nat} {bs : List Byte} (h : ¬(bs.length = 0 ∨ base + bs.length ≤ 4096)) :
    memWrite m base bs = .error (.addressOutOfRange (max base 4096)) :=
  (memWrite_eq m base bs).trans (if_neg h)

@[simp] theorem bcdDigits_length (b : Byte) : (bcdDigits b).length = 3 := rfl

theorem exec_answersAsListed (i : Instr) (s : State) : AnswersAsListed i s := by
  cases i with
  | nop | cls | jp | jpV0 | seImm | sneImm | seReg | sneReg | ldImm | addImm | ldReg | orReg | andReg | xorReg
  | addReg | subReg | shr | subnReg | shl | ldIndex | addIndex | ldFont | rnd | ldFromDt | ldDt | ldSt =>
    exact .inl ⟨rfl, _, rfl⟩
  | ldKey x =>
    refine .inl ⟨rfl, ?_⟩
    simp only [exec, execLdKey]
    cases s.lowestKey with
    | none => exact ⟨_, rfl⟩
    | some k => exact ⟨_, rfl⟩
  | call nnn =>
    refine answersAsListed_of_check rfl rfl (fun h => ?_) State.push_full
    exact ⟨_, State.push_room (by omega)⟩
  | ret =>
    refine answersAsListed_of_check rfl rfl (fun h => ?_) State.pop_empty
    exact ⟨_, State.pop_held (by omega)⟩
  | skp x | sknp x =>
    refine answersAsListed_of_check rfl rfl (fun h => ?_) fun h => keyOperand_error (by omega)
    exact ⟨_, keyOperand_ok (by omega)⟩
  | ldBcd x =>
    refine answersAsListed_of_check rfl rfl (fun h => memWrite_exists_ok _ ?_) fun h => memWrite_error _ ?_
    all_goals
      rw [baseAddr, bcdDigits_length]
      omega
  | storeRegs x =>
    refine answersAsListed_of_check rfl rfl (fun h => memWrite_exists_ok _ ?_) fun h => memWrite_error _ ?_
    all_goals
      rw [baseAddr, regsUpTo_length]
      omega
  | loadRegs x =>
    refine answersAsListed_of_check rfl rfl (fun h => memRead_exists_ok _ ?_) fun h => memRead_error _ ?_
    all_goals
      rw [baseAddr]
      omega
  | drw x y n =>
    refine answersAsListed_of_check rfl rfl (fun h => memRead_exists_ok _ ?_) fun h => memRead_error _ ?_
    all_goals
      rw [baseAddr]
      omega

/-- A fault that an instruction raises is the one listed for it. -/
theorem faultIn_of_exec_fault {i : Instr} {s : State} {f : Fault} (h : exec i s = .fault f) : faultIn i s = some f := by
  rcases exec_answersAsListed i s with ⟨-, t, ht⟩ | ⟨g, hg, hf⟩
  · cases ht.symm.trans h
  · cases hf.symm.trans h
    exact hg

/-! ### The addresses that faults carry (D1) -/

/-- A conditional fault that is an address fault carries its own address. -/
theorem addr_of_ite {c : Prop} [Decidable c] {b a : Nat}
    (h : (if c then some (Fault.addressOutOfRange b) else none) = some (.addressOutOfRange a)) : a = b := by
  split at h
  · cases h
    rfl
  · cases h

/-- The address fault of a data access carries the larger of `I` and 4096. -/
theorem faultIn_address {i : Instr} {s : State} {a : Nat} (h : faultIn i s = some (.addressOutOfRange a)) :
    a = max s.index.toNat 4096 := by
  cases i with
  | ldBcd | storeRegs | loadRegs | drw => exact addr_of_ite h
  | call | ret | skp | sknp =>
    simp only [faultIn] at h
    split at h <;> cases h
  | _ => cases h

/-- An address fault of a step is the fetch's, with `pc`, or a data access's, with an address above 4095. -/
theorem step_addressFault {s : State} {a : Nat} (h : step s = .fault (.addressOutOfRange a)) :
    (4094 < s.pc.toNat ∧ a = s.pc.toNat) ∨ 4096 ≤ a := by
  cases hp : s.pause with
  | true =>
    rw [step_paused hp] at h
    cases h
  | false =>
    by_cases hpc : s.pc.toNat ≤ 4094
    · rw [step_fetched hp hpc] at h
      split at h
      · cases h
      · rw [faultIn_address (faultIn_of_exec_fault h)]
        exact .inr (Nat.le_max_right _ _)
    · rw [step_fetch_fault hp (Nat.lt_of_not_le hpc)] at h
      cases h
      exact .inl ⟨Nat.lt_of_not_le hpc, rfl⟩

/-! ### Reachable states (R33) -/

/-- The invariant holds along every host schedule. -/
theorem performAll_inv (ops : List Operation) {s : State} (h : s.Inv) : (performAll ops s).Inv := by
  induction ops generalizing s with
  | nil => exact h
  | cons o ops ih => exact ih (h.perform o)

theorem reachable_inv {s : State} (h : s.Reachable) : s.Inv := by
  obtain ⟨ops, rfl⟩ := h
  exact performAll_inv ops State.reset_inv

/-- Settles O57: reset meets the invariant and every operation keeps it; an address fault is the fetch's or a data
access's. -/
theorem reachableStatesMeetTheBounds : Obligations.ReachableStatesMeetTheBounds := by
  intro s hreach
  obtain ⟨hwf, hpc, hheld⟩ := reachable_inv hreach
  refine ⟨⟨hwf, hpc, hheld⟩, fun a hfault => ⟨?_, fun ha => ha.trans_le hpc⟩⟩
  rcases step_addressFault hfault with ⟨hlow, rfl⟩ | ha
  · exact hlow
  · exact Nat.le_of_succ_le ha

end Sys2Proof
end


section
/-! SUPPORT. A store over the next instruction is seen by the next fetch (20_memory.md R50): what a step that runs an
instruction is, what `Fx55` stores, and the word that the step after it fetches. -/

namespace Sys2Proof.Machine

@[simp] theorem State.fetched_index (s : State) : s.fetched.index = s.index := rfl

@[simp] theorem State.fetched_pc (s : State) : s.fetched.pc = s.pc + 2 := rfl

/-- A step that fetches an instruction executes it from the fetched state (R81). -/
theorem step_of_runs {s : State} {i : Instr} (h : s.Runs i) : step s = exec i s.fetched := by
  obtain ⟨⟨hpause, hpc⟩, hword⟩ := h
  unfold State.nextWord at hword
  rw [step_fetched hpause hpc, hword]
  rfl

/-- The state after `Fx55`: `V[0]` to `V[x]` written from `I` on (R124). -/
def State.storeRegs (s : State) (x : Reg) : State := s.setMem (Memory.writeBytes s.mem (baseAddr s) (regsUpTo s x))

/-- `Fx55` completes where its last byte is in memory (R124, D1). -/
theorem exec_storeRegs {s : State} {x : Reg} (h : s.index.toNat + x.val ≤ 4095) :
    exec (.storeRegs x) s = .next (s.storeRegs x) := by
  have hrange : baseAddr s + (regsUpTo s x).length ≤ 4096 := by
    rw [baseAddr, regsUpTo_length]
    omega
  have hwrite : memWrite s.mem (baseAddr s) (regsUpTo s x) = .ok (s.storeRegs x).mem :=
    (memWrite_eq _ _ _).trans (if_pos (.inr hrange))
  exact congrArg (orRaise · fun m => .next (s.setMem m)) hwrite

/-- After `Fx55` the byte at `I + k` is `V[k]`, for each `k` up to `x` (R124). -/
theorem State.storeRegs_read {s : State} {x k : Reg} (hk : k ≤ x) :
    Memory.read (s.storeRegs x).mem (s.index.toNat + k.val) = s.reg k := by
  have hin : s.index.toNat ≤ s.index.toNat + k.val ∧
      s.index.toNat + k.val < s.index.toNat + (regsUpTo s x).length := by
    rw [regsUpTo_length]
    exact ⟨Nat.le_add_right _ _, Nat.add_lt_add_left (Nat.lt_succ_of_le hk) _⟩
  calc Memory.read (s.storeRegs x).mem (s.index.toNat + k.val)
    _ = (regsUpTo s x).getD (s.index.toNat + k.val - s.index.toNat) 0 :=
      (Memory.read_writeBytes _ _ _ _).trans (if_pos hin)
    _ = (regsUpTo s x).getD k.val 0 := by rw [Nat.add_sub_cancel_left]
    _ = s.reg k := regsUpTo_getD s x k hk

/-- Where `Fx55` with `x` at least 1 stores over the word at `pc`, that word becomes `V[0]` and `V[1]` (R43, R124). -/
theorem State.storeRegs_nextWord {s : State} {x : Reg} (hx : 1 ≤ x.val) (hpc : s.index = s.pc) :
    (s.storeRegs x).nextWord = assemble (s.reg 0) (s.reg 1) := by
  have hhigh : Memory.read (s.storeRegs x).mem s.index.toNat = s.reg 0 := State.storeRegs_read (Fin.zero_le x)
  have hlow : Memory.read (s.storeRegs x).mem (s.index.toNat + 1) = s.reg 1 := State.storeRegs_read (k := 1) hx
  rw [hpc] at hhigh hlow
  exact congrArg₂ assemble hhigh hlow

end Sys2Proof.Machine

namespace Sys2Proof

open Machine

/-- Settles O33: `Fx55` stores from `I`, which the fetch has made `pc`, so that the next step runs what `V[0]` and `V[1]`
spell. -/
theorem storeIsSeenByTheNextFetch : Obligations.StoreIsSeenByTheNextFetch := by
  intro s x i hruns hx hindex hrange hword
  rw [State.view_index] at hindex hrange
  rw [State.view_pc] at hindex
  have ⟨⟨hpause, _⟩, _⟩ := hruns
  have hpc : s.fetched.index = s.fetched.pc := by
    rw [State.fetched_index, State.fetched_pc]
    bv_omega
  have hlow : s.fetched.pc.toNat ≤ 4094 := by
    rw [← hpc, State.fetched_index]
    omega
  have hnext : (s.fetched.storeRegs x).Runs i :=
    ⟨⟨hpause, hlow⟩, (congrArg decodeWord (State.storeRegs_nextWord hx hpc)).trans hword⟩
  exact ⟨s.fetched.storeRegs x, (step_of_runs hruns).trans (exec_storeRegs hrange), step_of_runs hnext⟩

end Sys2Proof
end

section
/-! SUPPORT. The decoder and the encoder are inverse to each other (30_encoding.md R61 to R64): the fields of each
format read back, a word put together again from its fields, and from these the laws of the decoder, the words that the
mask and match columns select, and the illegal words of R65. -/

namespace Sys2Proof

open Laws

/-! ### The fields of each format read back (R61, R62) -/

@[simp] theorem regOf_nibbleOf (x : Reg) : regOf (nibbleOf x) = x := Fin.ext (nibbleOf_toNat x)

section
variable (major : BitVec 4) (x y : Reg)

@[simp] theorem nibble1_formatA (nnn : Addr12) : nibble1 (formatA major nnn) = major := by
  apply BitVec.eq_of_toNat_eq
  rw [nibble1_toNat, formatA_toNat]
  omega

@[simp] theorem literal_formatA (nnn : Addr12) : literal (formatA major nnn) = nnn := by
  apply BitVec.eq_of_toNat_eq
  rw [literal_toNat, formatA_toNat]
  omega

@[simp] theorem nibble1_formatXI (nn : Byte) : nibble1 (formatXI major x nn) = major := by
  apply BitVec.eq_of_toNat_eq
  rw [nibble1_toNat, formatXI_toNat]
  omega

@[simp] theorem nibble2_formatXI (nn : Byte) : nibble2 (formatXI major x nn) = nibbleOf x := by
  apply BitVec.eq_of_toNat_eq
  rw [nibble2_toNat, formatXI_toNat, nibbleOf_toNat]
  omega

@[simp] theorem immediate_formatXI (nn : Byte) : immediate (formatXI major x nn) = nn := by
  apply BitVec.eq_of_toNat_eq
  rw [immediate_toNat, formatXI_toNat]
  omega

@[simp] theorem nibble1_formatX (minor : Byte) : nibble1 (formatX major x minor) = major :=
  nibble1_formatXI major x minor

@[simp] theorem nibble2_formatX (minor : Byte) : nibble2 (formatX major x minor) = nibbleOf x :=
  nibble2_formatXI major x minor

@[simp] theorem immediate_formatX (minor : Byte) : immediate (formatX major x minor) = minor :=
  immediate_formatXI major x minor

@[simp] theorem nibble1_formatXY (minor : BitVec 4) : nibble1 (formatXY major x y minor) = major := by
  apply BitVec.eq_of_toNat_eq
  rw [nibble1_toNat, formatXY_toNat]
  omega

@[simp] theorem nibble2_formatXY (minor : BitVec 4) : nibble2 (formatXY major x y minor) = nibbleOf x := by
  apply BitVec.eq_of_toNat_eq
  rw [nibble2_toNat, formatXY_toNat, nibbleOf_toNat]
  omega

@[simp] theorem nibble3_formatXY (minor : BitVec 4) : nibble3 (formatXY major x y minor) = nibbleOf y := by
  apply BitVec.eq_of_toNat_eq
  rw [nibble3_toNat, formatXY_toNat, nibbleOf_toNat]
  omega

@[simp] theorem nibble4_formatXY (minor : BitVec 4) : nibble4 (formatXY major x y minor) = minor := by
  apply BitVec.eq_of_toNat_eq
  rw [nibble4_toNat, formatXY_toNat]
  omega

end

/-- The byte `nn` is the nibbles 3 and 4. -/
theorem immediate_eq_append (op : Word) : immediate op = nibble3 op ++ nibble4 op := by
  apply BitVec.eq_of_toNat_eq
  rw [immediate_toNat, toNat_append, nibble3_toNat, nibble4_toNat]
  omega

theorem nibble3_eq_extract (op : Word) : nibble3 op = (immediate op).extractLsb' 4 4 := by
  rw [immediate_eq_append, BitVec.extractLsb'_append_eq_left]

theorem nibble4_eq_extract (op : Word) : nibble4 op = (immediate op).extractLsb' 0 4 := by
  rw [immediate_eq_append, BitVec.extractLsb'_append_eq_right]

/-! ### A word put together again from its fields (R61, R62) -/

section
variable {op : Word} {major : BitVec 4}

theorem formatA_of_nibble (h : nibble1 op = major) : formatA major (literal op) = op := by
  apply BitVec.eq_of_toNat_eq
  rw [← h, formatA_toNat, nibble1_toNat, literal_toNat]
  omega

theorem formatXI_of_nibble (h : nibble1 op = major) :
    formatXI major (regOf (nibble2 op)) (immediate op) = op := by
  apply BitVec.eq_of_toNat_eq
  rw [← h, formatXI_toNat, nibble1_toNat, regOf_val, nibble2_toNat, immediate_toNat]
  omega

theorem formatXY_of_nibbles {minor : BitVec 4} (h1 : nibble1 op = major) (h4 : nibble4 op = minor) :
    formatXY major (regOf (nibble2 op)) (regOf (nibble3 op)) minor = op := by
  apply BitVec.eq_of_toNat_eq
  rw [← h1, ← h4, formatXY_toNat, nibble1_toNat, regOf_val, regOf_val, nibble2_toNat, nibble3_toNat, nibble4_toNat]
  omega

theorem formatX_of_immediate {minor : Byte} (h1 : nibble1 op = major) (h : immediate op = minor) :
    formatX major (regOf (nibble2 op)) minor = op := by
  rw [← h]
  exact formatXI_of_nibble h1

end

/-! ### Words (R64) -/

theorem wellFormed_drw_nibble (x y : Reg) (n : BitVec 4) : (Instr.drw x y n.toNat).wellFormed = true :=
  decide_eq_true (Nat.le_of_lt_succ n.isLt)

theorem encode_drw_of_nibble {op : Word} (h : nibble1 op = 0xD) :
    encode (.drw (regOf (nibble2 op)) (regOf (nibble3 op)) (nibble4 op).toNat) = op := by
  rw [encode, BitVec.ofNat_toNat, BitVec.setWidth_eq]
  exact formatXY_of_nibbles h rfl

/-- The encoding of a well-formed instruction decodes to it: its fields select the instruction's arm. -/
theorem decodeWord_encode {i : Instr} (h : i.wellFormed = true) : decodeWord (encode i) = some i := by
  cases i with
  | nop | cls | ret => rfl
  | jp | call | ldIndex | jpV0 => simp [encode, decodeWord]
  | seImm | sneImm | ldImm | addImm | rnd => simp [encode, decodeWord]
  | seReg | ldReg | orReg | andReg | xorReg | addReg | subReg | shr | subnReg | shl | sneReg =>
    simp [encode, decodeWord]
  | drw x y n =>
    have hn : n % 16 = n := Nat.mod_eq_of_lt (Nat.lt_succ_of_le (of_decide_eq_true h))
    simp [encode, decodeWord, hn]
  | skp | sknp | ldFromDt | ldKey | ldDt | ldSt | addIndex | ldFont | ldBcd | storeRegs | loadRegs =>
    simp [encode, decodeWord, nibble3_eq_extract, nibble4_eq_extract]

/-- A word that decodes is the encoding of a well-formed instruction: each arm keeps every field. Case `h_k` is row `k`
of R64, and the last eleven rows are of format `X`. -/
theorem encode_of_decodeWord {op : Word} {i : Instr} (h : decodeWord op = some i) :
    i.wellFormed = true ∧ encode i = op := by
  unfold decodeWord at h
  split at h
  case h_36 => nomatch h
  all_goals obtain rfl := Option.some.inj h
  case h_1 h1 h2 h3 h4 | h_2 h1 h2 h3 h4 | h_3 h1 h2 h3 h4 =>
    have hop := formatXY_of_nibbles h1 h4
    rw [h2, h3] at hop
    exact ⟨rfl, hop⟩
  case h_4 h1 | h_5 h1 | h_21 h1 | h_22 h1 => exact ⟨rfl, formatA_of_nibble h1⟩
  case h_6 h1 | h_7 h1 | h_9 h1 | h_10 h1 | h_23 h1 => exact ⟨rfl, formatXI_of_nibble h1⟩
  case h_24 h1 => exact ⟨wellFormed_drw_nibble _ _ _, encode_drw_of_nibble h1⟩
  case h_8 h1 h4 | h_11 h1 h4 | h_12 h1 h4 | h_13 h1 h4 | h_14 h1 h4 | h_15 h1 h4 | h_16 h1 h4 | h_17 h1 h4 |
      h_18 h1 h4 | h_19 h1 h4 | h_20 h1 h4 =>
    exact ⟨rfl, formatXY_of_nibbles h1 h4⟩
  all_goals next h1 h3 h4 =>
    have hlow := immediate_eq_append op
    rw [h3, h4] at hlow
    exact ⟨rfl, formatX_of_immediate h1 hlow⟩

/-- A word that does not decode is no instruction's encoding. -/
theorem encode_ne_of_none {op : Word} (h : decodeWord op = none) (i : Instr) (hi : i.wellFormed = true) :
    encode i ≠ op := by
  rintro rfl
  exact Option.some_ne_none i ((decodeWord_encode hi).symm.trans h)

/-! ### The words of a row (R64): the converses of the lemmas on fixed bits -/

theorem fitsRow (i : Instr) : FitsRow.Statement i := by
  cases i with
  | nop => exact FitsRow.nop
  | cls => exact FitsRow.cls
  | ret => exact FitsRow.ret
  | jp nnn => exact FitsRow.jp nnn
  | call nnn => exact FitsRow.call nnn
  | seImm x nn => exact FitsRow.seImm x nn
  | sneImm x nn => exact FitsRow.sneImm x nn
  | seReg x y => exact FitsRow.seReg x y
  | ldImm x nn => exact FitsRow.ldImm x nn
  | addImm x nn => exact FitsRow.addImm x nn
  | ldReg x y => exact FitsRow.ldReg x y
  | orReg x y => exact FitsRow.orReg x y
  | andReg x y => exact FitsRow.andReg x y
  | xorReg x y => exact FitsRow.xorReg x y
  | addReg x y => exact FitsRow.addReg x y
  | subReg x y => exact FitsRow.subReg x y
  | shr x y => exact FitsRow.shr x y
  | subnReg x y => exact FitsRow.subnReg x y
  | shl x y => exact FitsRow.shl x y
  | sneReg x y => exact FitsRow.sneReg x y
  | ldIndex nnn => exact FitsRow.ldIndex nnn
  | jpV0 nnn => exact FitsRow.jpV0 nnn
  | rnd x nn => exact FitsRow.rnd x nn
  | drw x y n => exact FitsRow.drw x y n
  | skp x => exact FitsRow.skp x
  | sknp x => exact FitsRow.sknp x
  | ldFromDt x => exact FitsRow.ldFromDt x
  | ldKey x => exact FitsRow.ldKey x
  | ldDt x => exact FitsRow.ldDt x
  | ldSt x => exact FitsRow.ldSt x
  | addIndex x => exact FitsRow.addIndex x
  | ldFont x => exact FitsRow.ldFont x
  | ldBcd x => exact FitsRow.ldBcd x
  | storeRegs x => exact FitsRow.storeRegs x
  | loadRegs x => exact FitsRow.loadRegs x

/-- A field that the mask keeps whole reads as in the masked word. -/
theorem extract_of_and {w start len : Nat} {a mask fixed : BitVec w} (h : a &&& mask = fixed)
    (hmask : mask.extractLsb' start len = BitVec.allOnes len) :
    a.extractLsb' start len = fixed.extractLsb' start len := by
  rw [← h, BitVec.extractLsb'_and, hmask, BitVec.and_allOnes]

section
variable {op : Word} {major : BitVec 4}

theorem formatA_of_and (h : op &&& 0xF000 = formatA major 0) : formatA major (literal op) = op :=
  formatA_of_nibble ((extract_of_and h rfl).trans (nibble1_formatA _ _))

theorem formatXI_of_and (h : op &&& 0xF000 = formatXI major 0 0) :
    formatXI major (regOf (nibble2 op)) (immediate op) = op :=
  formatXI_of_nibble ((extract_of_and h rfl).trans (nibble1_formatXI _ _ _))

theorem formatXY_of_and {minor : BitVec 4} (h : op &&& 0xF00F = formatXY major 0 0 minor) :
    formatXY major (regOf (nibble2 op)) (regOf (nibble3 op)) minor = op :=
  formatXY_of_nibbles ((extract_of_and h rfl).trans (nibble1_formatXY _ _ _ _))
    ((extract_of_and h rfl).trans (nibble4_formatXY _ _ _ _))

theorem formatX_of_and {minor : Byte} (h : op &&& 0xF0FF = formatX major 0 minor) :
    formatX major (regOf (nibble2 op)) minor = op :=
  formatX_of_immediate ((extract_of_and h rfl).trans (nibble1_formatX _ _ _))
    ((extract_of_and h rfl).trans (immediate_formatX _ _ _))

end

/-- A word with the fixed bits of row `k` is the encoding of an instruction of that row. -/
theorem exists_encode_of_fixedBits {op : Word} : ∀ k : Nat, 1 ≤ k → k ≤ 35 →
    op &&& (rowMaskMatch k).1 = (rowMaskMatch k).2 → ∃ i : Instr, i.wellFormed = true ∧ i.row = k ∧ encode i = op
  | 1, _, _, h => ⟨.nop, rfl, rfl, (BitVec.and_allOnes.symm.trans h).symm⟩
  | 2, _, _, h => ⟨.cls, rfl, rfl, (BitVec.and_allOnes.symm.trans h).symm⟩
  | 3, _, _, h => ⟨.ret, rfl, rfl, (BitVec.and_allOnes.symm.trans h).symm⟩
  | 4, _, _, h => ⟨.jp _, rfl, rfl, formatA_of_and h⟩
  | 5, _, _, h => ⟨.call _, rfl, rfl, formatA_of_and h⟩
  | 6, _, _, h => ⟨.seImm _ _, rfl, rfl, formatXI_of_and h⟩
  | 7, _, _, h => ⟨.sneImm _ _, rfl, rfl, formatXI_of_and h⟩
  | 8, _, _, h => ⟨.seReg _ _, rfl, rfl, formatXY_of_and h⟩
  | 9, _, _, h => ⟨.ldImm _ _, rfl, rfl, formatXI_of_and h⟩
  | 10, _, _, h => ⟨.addImm _ _, rfl, rfl, formatXI_of_and h⟩
  | 11, _, _, h => ⟨.ldReg _ _, rfl, rfl, formatXY_of_and h⟩
  | 12, _, _, h => ⟨.orReg _ _, rfl, rfl, formatXY_of_and h⟩
  | 13, _, _, h => ⟨.andReg _ _, rfl, rfl, formatXY_of_and h⟩
  | 14, _, _, h => ⟨.xorReg _ _, rfl, rfl, formatXY_of_and h⟩
  | 15, _, _, h => ⟨.addReg _ _, rfl, rfl, formatXY_of_and h⟩
  | 16, _, _, h => ⟨.subReg _ _, rfl, rfl, formatXY_of_and h⟩
  | 17, _, _, h => ⟨.shr _ _, rfl, rfl, formatXY_of_and h⟩
  | 18, _, _, h => ⟨.subnReg _ _, rfl, rfl, formatXY_of_and h⟩
  | 19, _, _, h => ⟨.shl _ _, rfl, rfl, formatXY_of_and h⟩
  | 20, _, _, h => ⟨.sneReg _ _, rfl, rfl, formatXY_of_and h⟩
  | 21, _, _, h => ⟨.ldIndex _, rfl, rfl, formatA_of_and h⟩
  | 22, _, _, h => ⟨.jpV0 _, rfl, rfl, formatA_of_and h⟩
  | 23, _, _, h => ⟨.rnd _ _, rfl, rfl, formatXI_of_and h⟩
  | 24, _, _, h => ⟨.drw _ _ (nibble4 op).toNat, wellFormed_drw_nibble _ _ _, rfl,
      encode_drw_of_nibble (extract_of_and h rfl)⟩
  | 25, _, _, h => ⟨.skp _, rfl, rfl, formatX_of_and h⟩
  | 26, _, _, h => ⟨.sknp _, rfl, rfl, formatX_of_and h⟩
  | 27, _, _, h => ⟨.ldFromDt _, rfl, rfl, formatX_of_and h⟩
  | 28, _, _, h => ⟨.ldKey _, rfl, rfl, formatX_of_and h⟩
  | 29, _, _, h => ⟨.ldDt _, rfl, rfl, formatX_of_and h⟩
  | 30, _, _, h => ⟨.ldSt _, rfl, rfl, formatX_of_and h⟩
  | 31, _, _, h => ⟨.addIndex _, rfl, rfl, formatX_of_and h⟩
  | 32, _, _, h => ⟨.ldFont _, rfl, rfl, formatX_of_and h⟩
  | 33, _, _, h => ⟨.ldBcd _, rfl, rfl, formatX_of_and h⟩
  | 34, _, _, h => ⟨.storeRegs _, rfl, rfl, formatX_of_and h⟩
  | 35, _, _, h => ⟨.loadRegs _, rfl, rfl, formatX_of_and h⟩
  | 0, hlow, _, _ => absurd hlow (by decide)
  | k + 36, _, hhigh, _ => absurd hhigh (by omega)

/-! ### The illegal words (R65) -/

/-- An encoding lies in none of the six spaces: its major opcode has no minor ones, or its minor opcode is listed. -/
theorem not_illegalWord_encode (i : Instr) : ¬ IllegalWord (encode i) := by
  unfold IllegalWord
  rw [← nibble1_toNat, ← nibble4_toNat, ← immediate_toNat]
  cases i with
  | nop | cls | ret => decide
  | jp | call | ldIndex | jpV0 => simp [encode]
  | seImm | sneImm | ldImm | addImm | rnd => simp [encode]
  | seReg | ldReg | orReg | andReg | xorReg | addReg | subReg | shr | subnReg | shl | sneReg | drw => simp [encode]
  | skp | sknp | ldFromDt | ldKey | ldDt | ldSt | addIndex | ldFont | ldBcd | storeRegs | loadRegs => simp [encode]

section
variable {op : Word}

theorem nibble1_of_div {v : BitVec 4} (h : op.toNat / 4096 = v.toNat) : nibble1 op = v :=
  BitVec.eq_of_toNat_eq ((nibble1_toNat op).trans h)

theorem nibble4_of_mod {v : BitVec 4} (h : op.toNat % 16 = v.toNat) : nibble4 op = v :=
  BitVec.eq_of_toNat_eq ((nibble4_toNat op).trans h)

theorem immediate_of_mod {v : Byte} (h : op.toNat % 256 = v.toNat) : immediate op = v :=
  BitVec.eq_of_toNat_eq ((immediate_toNat op).trans h)

variable (h : decodeWord op = none)
include h

/-- The last nibbles left over by the nine rows of major opcode 8. -/
theorem lastNibble_of_none_major8 (h1 : nibble1 op = 0x8) : op.toNat % 16 ∈ [0x8, 0x9, 0xA, 0xB, 0xC, 0xD, 0xF] := by
  have word {minor : BitVec 4} (e : op.toNat % 16 = minor.toNat) := formatXY_of_nibbles h1 (nibble4_of_mod e)
  have h0 : op.toNat % 16 ≠ 0x0 := fun e => encode_ne_of_none h (.ldReg _ _) rfl (word e)
  have h1 : op.toNat % 16 ≠ 0x1 := fun e => encode_ne_of_none h (.orReg _ _) rfl (word e)
  have h2 : op.toNat % 16 ≠ 0x2 := fun e => encode_ne_of_none h (.andReg _ _) rfl (word e)
  have h3 : op.toNat % 16 ≠ 0x3 := fun e => encode_ne_of_none h (.xorReg _ _) rfl (word e)
  have h4 : op.toNat % 16 ≠ 0x4 := fun e => encode_ne_of_none h (.addReg _ _) rfl (word e)
  have h5 : op.toNat % 16 ≠ 0x5 := fun e => encode_ne_of_none h (.subReg _ _) rfl (word e)
  have h6 : op.toNat % 16 ≠ 0x6 := fun e => encode_ne_of_none h (.shr _ _) rfl (word e)
  have h7 : op.toNat % 16 ≠ 0x7 := fun e => encode_ne_of_none h (.subnReg _ _) rfl (word e)
  have hE : op.toNat % 16 ≠ 0xE := fun e => encode_ne_of_none h (.shl _ _) rfl (word e)
  simp only [List.mem_cons, List.not_mem_nil, or_false]
  omega

/-- The low bytes of the two rows of major opcode E are taken. -/
theorem lowByte_of_none_majorE (h1 : nibble1 op = 0xE) : op.toNat % 256 ≠ 0x9E ∧ op.toNat % 256 ≠ 0xA1 := by
  have word {minor : Byte} (e : op.toNat % 256 = minor.toNat) := formatX_of_immediate h1 (immediate_of_mod e)
  constructor
  · exact fun e => encode_ne_of_none h (.skp _) rfl (word e)
  · exact fun e => encode_ne_of_none h (.sknp _) rfl (word e)

/-- The low bytes of the nine rows of major opcode F are taken. -/
theorem lowByte_of_none_majorF (h1 : nibble1 op = 0xF) :
    op.toNat % 256 ∉ [0x07, 0x0A, 0x15, 0x18, 0x1E, 0x29, 0x33, 0x55, 0x65] := by
  have word {minor : Byte} (e : op.toNat % 256 = minor.toNat) := formatX_of_immediate h1 (immediate_of_mod e)
  simp only [List.mem_cons, List.not_mem_nil, or_false, not_or]
  refine ⟨?_, ?_, ?_, ?_, ?_, ?_, ?_, ?_, ?_⟩
  · exact fun e => encode_ne_of_none h (.ldFromDt _) rfl (word e)
  · exact fun e => encode_ne_of_none h (.ldKey _) rfl (word e)
  · exact fun e => encode_ne_of_none h (.ldDt _) rfl (word e)
  · exact fun e => encode_ne_of_none h (.ldSt _) rfl (word e)
  · exact fun e => encode_ne_of_none h (.addIndex _) rfl (word e)
  · exact fun e => encode_ne_of_none h (.ldFont _) rfl (word e)
  · exact fun e => encode_ne_of_none h (.ldBcd _) rfl (word e)
  · exact fun e => encode_ne_of_none h (.storeRegs _) rfl (word e)
  · exact fun e => encode_ne_of_none h (.loadRegs _) rfl (word e)

/-- A word that does not decode lies in the space of its major opcode; ten major opcodes have none. The cases are the
major opcodes 0 to F in order. -/
theorem illegalWord_of_decodeWord_none : IllegalWord op := by
  have hmajor : op.toNat / 4096 < 16 := Nat.div_lt_of_lt_mul op.isLt
  unfold IllegalWord
  interval_cases hm : op.toNat / 4096
  · refine .inl ⟨rfl, ?_, ?_, ?_⟩
    · exact fun e => encode_ne_of_none h .nop rfl (BitVec.eq_of_toNat_eq e.symm)
    · exact fun e => encode_ne_of_none h .cls rfl (BitVec.eq_of_toNat_eq e.symm)
    · exact fun e => encode_ne_of_none h .ret rfl (BitVec.eq_of_toNat_eq e.symm)
  · exact absurd (formatA_of_nibble (nibble1_of_div hm)) (encode_ne_of_none h (.jp _) rfl)
  · exact absurd (formatA_of_nibble (nibble1_of_div hm)) (encode_ne_of_none h (.call _) rfl)
  · exact absurd (formatXI_of_nibble (nibble1_of_div hm)) (encode_ne_of_none h (.seImm _ _) rfl)
  · exact absurd (formatXI_of_nibble (nibble1_of_div hm)) (encode_ne_of_none h (.sneImm _ _) rfl)
  · exact .inr (.inl ⟨rfl, fun e => encode_ne_of_none h (.seReg _ _) rfl
      (formatXY_of_nibbles (nibble1_of_div hm) (nibble4_of_mod e))⟩)
  · exact absurd (formatXI_of_nibble (nibble1_of_div hm)) (encode_ne_of_none h (.ldImm _ _) rfl)
  · exact absurd (formatXI_of_nibble (nibble1_of_div hm)) (encode_ne_of_none h (.addImm _ _) rfl)
  · exact .inr (.inr (.inl ⟨rfl, lastNibble_of_none_major8 h (nibble1_of_div hm)⟩))
  · exact .inr (.inr (.inr (.inl ⟨rfl, fun e => encode_ne_of_none h (.sneReg _ _) rfl
      (formatXY_of_nibbles (nibble1_of_div hm) (nibble4_of_mod e))⟩)))
  · exact absurd (formatA_of_nibble (nibble1_of_div hm)) (encode_ne_of_none h (.ldIndex _) rfl)
  · exact absurd (formatA_of_nibble (nibble1_of_div hm)) (encode_ne_of_none h (.jpV0 _) rfl)
  · exact absurd (formatXI_of_nibble (nibble1_of_div hm)) (encode_ne_of_none h (.rnd _ _) rfl)
  · exact absurd (encode_drw_of_nibble (nibble1_of_div hm)) (encode_ne_of_none h _ (wellFormed_drw_nibble _ _ _))
  · exact .inr (.inr (.inr (.inr (.inl ⟨rfl, lowByte_of_none_majorE h (nibble1_of_div hm)⟩))))
  · exact .inr (.inr (.inr (.inr (.inr ⟨rfl, lowByte_of_none_majorF h (nibble1_of_div hm)⟩))))

end

theorem decodeWord_eq_none_iff (op : Word) : decodeWord op = none ↔ IllegalWord op := by
  refine ⟨illegalWord_of_decodeWord_none, fun hillegal => ?_⟩
  by_contra hsome
  obtain ⟨i, hi⟩ := Option.ne_none_iff_exists'.mp hsome
  obtain ⟨-, rfl⟩ := encode_of_decodeWord hi
  exact not_illegalWord_encode i hillegal

/-- The word of format `XY` written as a sum is the word put together from its nibbles (R61, R62). -/
theorem wordXY_eq_formatXY (major minor : BitVec 4) (x y : Reg) :
    wordXY major.toNat x y minor.toNat = formatXY major x y minor := by
  apply BitVec.eq_of_toNat_eq
  rw [wordXY, BitVec.toNat_ofNat, formatXY_toNat]
  omega

end Sys2Proof
end

section
/-! SUPPORT. The step that fetches a word with no instruction, and the statements of 30_encoding.md, from the laws of the
decoder and the encoder. -/

namespace Sys2Proof.Machine

/-- A step that fetches a word with no instruction faults with the word (R65, R81). -/
theorem step_of_decodeWord_none {s : State} (hs : s.Fetches) (h : decodeWord s.nextWord = none) :
    step s = .fault (.unimplementedOpcode s.nextWord) := by
  obtain ⟨hpause, hpc⟩ := hs
  rw [State.nextWord] at h ⊢
  rw [step_fetched hpause hpc, h]

/-- A step that faults leaves the machine as it was and reports the fault (R151). -/
theorem perform_step_of_fault {s : State} {f : Fault} (h : step s = .fault f) : perform .step s = (s, .fault f) := by
  rw [perform, h, settle]

end Sys2Proof.Machine

namespace Sys2Proof

open Machine Laws

/-- Settles O1: the two bytes assemble to the word again, and the word decodes to the instruction. -/
theorem decodeOfEncodeIsTheInstruction : Obligations.DecodeOfEncodeIsTheInstruction := by
  intro i rest hi
  refine (decode_two _ _ rest i).mpr ?_
  rw [assemble_bytes]
  exact decodeWord_encode hi

/-- Settles O2, row by row of the decoder. -/
theorem encodeOfDecodeIsTheWord : Obligations.EncodeOfDecodeIsTheWord := fun _ _ => encode_of_decodeWord

/-- Settles O3: an encoding has the fixed bits of its row, and a word with the fixed bits of a row is an encoding. -/
theorem wordIsRowIffMaskMatches : Obligations.WordIsRowIffMaskMatches := by
  refine ⟨rfl, fun op k hlow hhigh => ⟨?_, fun h => ?_⟩⟩
  · rintro ⟨i, hi, rfl⟩
    obtain ⟨-, rfl⟩ := encode_of_decodeWord hi
    exact fitsRow i
  · obtain ⟨i, hi, hrow, rfl⟩ := exists_encode_of_fixedBits k hlow hhigh h
    exact ⟨i, decodeWord_encode hi, hrow⟩

/-- Settles O4: the words that no instruction encodes to are R65's, and the step that fetches one faults at decode. -/
theorem illegalWordsFaultUnchanged : Obligations.IllegalWordsFaultUnchanged := by
  refine ⟨decodeWord_eq_none_iff, fun s hs hillegal => ?_⟩
  have hstep := step_of_decodeWord_none hs ((decodeWord_eq_none_iff _).mpr hillegal)
  exact ⟨hstep, perform_step_of_fault hstep⟩

/-- Settles O5: the seven words are fixed, so the decoder computes. -/
theorem sampleWordsDecode : Obligations.SampleWordsDecode := by
  unfold Obligations.SampleWordsDecode
  decide

/-- Settles O6: the words are encodings, and neither shift reads `y`. -/
theorem shiftsIgnoreTheirYField : Obligations.ShiftsIgnoreTheirYField := by
  intro x y y' s
  refine ⟨?_, ?_, rfl, rfl⟩
  · exact (congrArg decodeWord (wordXY_eq_formatXY 0x8 0x6 x y)).trans (decodeWord_encode (i := .shr x y) rfl)
  · exact (congrArg decodeWord (wordXY_eq_formatXY 0x8 0xE x y)).trans (decodeWord_encode (i := .shl x y) rfl)

end Sys2Proof
end

section
/-! SUPPORT. What a step keeps (40_step_cycle_and_control.md R80, R81): the step as the run of one instruction from the
fetched state, the frame of a step, and which instructions write a timer, a key or `pause` (10_state.md R34). -/

namespace Sys2Proof.Machine

/-! ### The fetched state (R80, R81) -/

/-- The fetch writes `pc` and `fb_changed`. -/
theorem onlyChanges_fetched (s : State) : OnlyChanges s s.fetched fun p => p = .pc ∨ p = .fbChanged :=
  (onlyChanges_setPc s _).trans (onlyChanges_setFb _ false)

/-- Where the fetch is in memory, its advance of `pc` does not wrap. -/
theorem State.view_fetched_pc {s : State} (h : s.Fetches) : s.fetched.view .pc = s.view .pc + 2 := by
  obtain ⟨-, hpc⟩ := h
  rw [State.view_pc, State.view_pc, State.fetched_pc]
  bv_omega

/-- A step that completes is a paused one, or runs an instruction from the fetched state. -/
theorem step_next_runs {s t : State} (h : step s = .next t) :
    t = s.setFb false ∨ ∃ i, s.Runs i ∧ exec i s.fetched = .next t := by
  rcases step_next h with ⟨-, rfl⟩ | ⟨hpause, hpc, i, hword, hexec⟩
  · exact .inl rfl
  · exact .inr ⟨i, ⟨⟨hpause, hpc⟩, hword⟩, hexec⟩

/-- The frame of a step: a part other than `pc` and `fb_changed` is kept, or the instruction run writes it. -/
theorem step_keeps_or_writes {s t : State} (h : step s = .next t) (p : Part) (hpc : p ≠ .pc) (hfb : p ≠ .fbChanged) :
    t.view p = s.view p ∨ ∃ i, s.Runs i ∧ Writes i s.fetched p ∧ exec i s.fetched = .next t := by
  rcases step_next_runs h with rfl | ⟨i, hruns, hexec⟩
  · exact .inl (onlyChanges_setFb s false p hfb)
  · by_cases hw : Writes i s.fetched p
    · exact .inr ⟨i, hruns, hw, hexec⟩
    · have hfetch : s.fetched.view p = s.view p := onlyChanges_fetched s p (not_or.mpr ⟨hpc, hfb⟩)
      exact .inl ((exec_frame hexec p hw).trans hfetch)

/-! ### Which instructions write a timer, a key or `pause` (10_state.md R34) -/

section
variable {i : Instr} {s : State}

theorem not_writes_pause : ¬ Writes i s .pause := by
  cases i <;> simp [Writes]

theorem not_writes_key (k : Key) : ¬ Writes i s (.key k) := by
  cases i <;> simp [Writes]

theorem eq_ldDt_of_writes_dt (h : Writes i s .dt) : ∃ x, i = .ldDt x := by
  cases i with
  | ldDt x => exact ⟨x, rfl⟩
  | _ => simp [Writes] at h

theorem eq_ldSt_of_writes_st (h : Writes i s .st) : ∃ x, i = .ldSt x := by
  cases i with
  | ldSt x => exact ⟨x, rfl⟩
  | _ => simp [Writes] at h

end

end Sys2Proof.Machine

namespace Sys2Proof

open Machine

/-- Settles O9: the frame of a step, with `Fx15` the only instruction that writes `DT` and `Fx18` the only one that
writes `ST`. -/
theorem stepKeepsKeysAndPauseAndCountsNoTimer : Obligations.StepKeepsKeysAndPauseAndCountsNoTimer := by
  intro s t h
  have frame := step_keeps_or_writes h
  refine ⟨?pause, fun k => ?key, ?dt, ?st⟩
  case pause => exact (frame .pause nofun nofun).resolve_right fun ⟨_, _, hw, _⟩ => not_writes_pause hw
  case key => exact (frame (.key k) nofun nofun).resolve_right fun ⟨_, _, hw, _⟩ => not_writes_key k hw
  case dt =>
    refine (frame .dt nofun nofun).imp_right fun ⟨i, hruns, hw, hexec⟩ => ?_
    obtain ⟨x, rfl⟩ := eq_ldDt_of_writes_dt hw
    cases hexec
    exact ⟨x, hruns, rfl⟩
  case st =>
    refine (frame .st nofun nofun).imp_right fun ⟨i, hruns, hw, hexec⟩ => ?_
    obtain ⟨x, rfl⟩ := eq_ldSt_of_writes_st hw
    cases hexec
    exact ⟨x, hruns, rfl⟩

/-- Settles O7: the two bytes decode as the word they assemble to. -/
theorem stepRunsTheDecodedInstruction : Obligations.StepRunsTheDecodedInstruction := by
  intro s i hpause hpc hdecode
  exact step_of_runs ⟨⟨hpause, hpc⟩, (decode_two _ _ _ i).mp hdecode⟩

/-- Settles O11: the step of `NOP` answers the fetched state itself. -/
theorem nopOnlyAdvancesPc : Obligations.NopOnlyAdvancesPc := by
  refine ⟨rfl, fun _ => rfl, fun s hfetches hword => ?_⟩
  have hruns : s.Runs .nop := ⟨hfetches, congrArg decodeWord hword⟩
  exact ⟨s.fetched, step_of_runs hruns, State.view_fetched_pc hfetches, rfl, onlyChanges_fetched s⟩

end Sys2Proof
end

section
/-! SUPPORT. The control transfers (40_step_cycle_and_control.md R83 to R90): the words as sums, what `CALL` and `RET`
answer where the stack has room or an entry, and what a skip answers. -/

namespace Sys2Proof

open Machine

/-! ### Words written as sums (30_encoding.md R62) -/

/-- The word of format `A` written as a sum is the word put together from its fields. -/
theorem wordA_eq_formatA (major : BitVec 4) (nnn : Addr12) : wordA major.toNat nnn = formatA major nnn := by
  apply BitVec.eq_of_toNat_eq
  rw [wordA, BitVec.toNat_ofNat, formatA_toNat]
  omega

/-- The word of format `XI` written as a sum is the word put together from its fields. -/
theorem wordXI_eq_formatXI (major : BitVec 4) (x : Reg) (nn : Byte) :
    wordXI major.toNat x nn = formatXI major x nn := by
  apply BitVec.eq_of_toNat_eq
  rw [wordXI, BitVec.toNat_ofNat, formatXI_toNat]
  omega

/-- Fields in range do not overflow the word. -/
theorem wordXY_toNat {major last : Nat} (x y : Reg) (hmajor : major ≤ 15) (hlast : last ≤ 15) :
    (wordXY major x y last).toNat = 4096 * major + 256 * x.val + 16 * y.val + last := by
  rw [wordXY, BitVec.toNat_ofNat]
  omega

theorem decodeWord_of_eq_encode {op : Word} {i : Instr} (hi : i.wellFormed = true) (h : op = encode i) :
    decodeWord op = some i :=
  h ▸ decodeWord_encode hi

/-- With major opcode 5 or 9 a last nibble other than 0 spells no instruction (R65). -/
theorem decodeWord_wordXY_eq_none {major last : Nat} (x y : Reg) (hmajor : major = 5 ∨ major = 9) (hlow : 1 ≤ last)
    (hhigh : last ≤ 15) : decodeWord (wordXY major x y last) = none := by
  have hword := wordXY_toNat x y (major := major) (by omega) hhigh
  rw [decodeWord_eq_none_iff, IllegalWord]
  rcases hmajor with rfl | rfl
  · exact .inr (.inl (by omega))
  · exact .inr (.inr (.inr (.inl (by omega))))

end Sys2Proof

namespace Sys2Proof.Machine

/-! ### `RET`, `CALL` and the skips -/

/-- `RET` with `k + 1` entries (R83). -/
theorem exec_ret {s : State} {k : Fin 16} (h : s.sp.val = k.val + 1) :
    exec .ret s = .next ((s.setSp k.castSucc).setPc s.stack[k.val]) := by
  have hpop : s.pop = .ok (s.stack[k.val], s.setSp k.castSucc) := by
    rw [State.pop_held (by omega)]
    simp only [h, Nat.add_sub_cancel]
    rfl
  exact congrArg (orRaise · fun popped => .next (popped.2.setPc popped.1)) hpop

/-- `CALL` with `k < 16` entries (R85). -/
theorem exec_call (nnn : Addr12) {s : State} {k : Fin 16} (h : s.sp.val = k.val) :
    exec (.call nnn) s =
      .next (((s.setStack (s.stack.set k.val s.pc)).setSp k.succ).setPc (literalWord nnn)) := by
  have hpush : s.push s.pc = .ok ((s.setStack (s.stack.set k.val s.pc)).setSp k.succ) := by
    rw [State.push_room (by omega)]
    simp only [h]
    rfl
  exact congrArg (orRaise · fun t => .next (t.setPc (literalWord nnn))) hpush

/-- An instruction that is a skip adds 2 to `pc` exactly on its condition, and changes nothing else (R86 to R89). -/
theorem exec_of_skipIf {i : Instr} {s : State} {c : Bool} {P : Prop} [Decidable P]
    (hexec : exec i s = .next (s.skipIf c)) (hc : c = true ↔ P) :
    ∃ t, exec i s = .next t ∧ t.pc = (if P then s.pc + 2 else s.pc) ∧ OnlyChanges s t fun p => p = .pc :=
  ⟨_, hexec, (s.skipIf_pc c).trans (if_congr hc rfl rfl), onlyChanges_skipIf s c⟩

theorem beq_iff_toNat_eq (a b : Byte) : (a == b) = true ↔ a.toNat = b.toNat :=
  beq_iff_eq.trans BitVec.toNat_inj.symm

theorem bne_iff_toNat_ne (a b : Byte) : (a != b) = true ↔ a.toNat ≠ b.toNat :=
  bne_iff_ne.trans (not_congr BitVec.toNat_inj.symm)

/-- The sum `V0 + nnn` fits in the 16 bits of `pc` (R90). -/
theorem jpV0_target_toNat (b : Byte) (nnn : Addr12) :
    (BitVec.ofNat 16 (b.toNat + nnn.toNat)).toNat = b.toNat + nnn.toNat := by
  rw [BitVec.toNat_ofNat]
  omega

end Sys2Proof.Machine

namespace Sys2Proof

open Machine

/-- Settles O15: `CALL` leaves the advanced `pc` in slot `sp`, which is the slot that `RET` reads. -/
theorem returnResumesAfterTheCall : Obligations.ReturnResumesAfterTheCall := by
  intro nnn s hroom
  obtain ⟨k, hk⟩ : ∃ k : Fin 16, s.sp.val = k.val := ⟨⟨s.sp.val, hroom⟩, rfl⟩
  refine ⟨_, exec_call nnn hk, fun t' hstack hsp => ?_⟩
  have hheld : t'.sp.val = k.val + 1 := congrArg Fin.val hsp
  have hslot : t'.stack[k.val] = s.pc := by
    rw [hstack]
    exact Vector.getElem_set_self k.isLt
  exact ⟨_, exec_ret hheld, congrArg BitVec.toNat hslot, hk.symm⟩

/-- Settles O12: `RET` answers a state written out, with the frame of `RET`. -/
theorem retPopsTheReturnAddress : Obligations.RetPopsTheReturnAddress := by
  refine ⟨rfl, fun s k hsp => ?_⟩
  have hexec := exec_ret hsp
  exact ⟨_, hexec, rfl, rfl, exec_frame hexec⟩

/-- Settles O13: the literal zero-extended is `nnn` itself. -/
theorem jumpSetsPc : Obligations.JumpSetsPc := by
  intro nnn
  refine ⟨decodeWord_of_eq_encode rfl (wordA_eq_formatA 0x1 nnn), fun s => ?_⟩
  exact ⟨s.setPc (literalWord nnn), rfl, literalWord_toNat nnn, onlyChanges_setPc s _⟩

/-- Settles O14: the slot that the frame of `CALL` allows is the one numbered `sp`. -/
theorem callPushesThePcAndJumps : Obligations.CallPushesThePcAndJumps := by
  intro nnn
  refine ⟨decodeWord_of_eq_encode rfl (wordA_eq_formatA 0x2 nnn), fun s k hsp => ?_⟩
  have hexec := exec_call nnn hsp
  refine ⟨_, hexec, congrArg BitVec.toNat (Vector.getElem_set_self k.isLt), rfl, literalWord_toNat nnn,
    (exec_frame hexec).mono ?_⟩
  rintro p (hpc | hp | ⟨j, hj, rfl⟩)
  · exact .inl hpc
  · exact .inr (.inl hp)
  · exact .inr (.inr (congrArg Part.slot (Fin.ext (hj.trans hsp))))

/-- Settles O16: both are skips, and the model's comparison of bytes is that of their unsigned values. -/
theorem immediateSkips : Obligations.ImmediateSkips := by
  intro x nn
  refine ⟨decodeWord_of_eq_encode rfl (wordXI_eq_formatXI 0x3 x nn),
    decodeWord_of_eq_encode rfl (wordXI_eq_formatXI 0x4 x nn), fun s => ⟨?_, ?_⟩⟩
  · exact exec_of_skipIf rfl (beq_iff_toNat_eq (s.reg x) nn)
  · exact exec_of_skipIf rfl (bne_iff_toNat_ne (s.reg x) nn)

/-- Settles O17: both are skips, and the words with another last nibble are illegal. -/
theorem registerSkips : Obligations.RegisterSkips := by
  intro x y
  refine ⟨decodeWord_of_eq_encode rfl (wordXY_eq_formatXY 0x5 0x0 x y),
    decodeWord_of_eq_encode rfl (wordXY_eq_formatXY 0x9 0x0 x y), fun n hlow hhigh => ⟨?_, ?_⟩, fun s => ⟨?_, ?_⟩⟩
  · exact decodeWord_wordXY_eq_none x y (.inl rfl) hlow hhigh
  · exact decodeWord_wordXY_eq_none x y (.inr rfl) hlow hhigh
  · exact exec_of_skipIf rfl (beq_iff_toNat_eq (s.reg x) (s.reg y))
  · exact exec_of_skipIf rfl (bne_iff_toNat_ne (s.reg x) (s.reg y))

/-- Settles O18: the sum fits in 16 bits. -/
theorem jumpV0AddsV0 : Obligations.JumpV0AddsV0 := by
  intro nnn
  refine ⟨decodeWord_of_eq_encode rfl (wordA_eq_formatA 0xB nnn), fun s => ?_⟩
  exact ⟨_, rfl, jpV0_target_toNat (s.reg 0) nnn, onlyChanges_setPc s _⟩

end Sys2Proof
end

section
/-! SUPPORT. The register loads and the ALU (41_load_and_alu.md R100 to R111): what an instruction answers that writes
one register, or a result and then its flag, and every flag and wrapped result as a number. -/

namespace Sys2Proof.Machine

/-! ### Flags and results as numbers -/

theorem carry_flag_toNat (a b : Byte) :
    (flagByte (carry a b)).toNat = if a.toNat + b.toNat > 255 then 1 else 0 :=
  (flagByte_toNat _).trans (if_congr decide_eq_true_iff rfl rfl)

theorem notBorrow_flag_toNat (a b : Byte) :
    (flagByte (notBorrow a b)).toNat = if a.toNat < b.toNat then 0 else 1 := by
  by_cases h : a.toNat < b.toNat <;> simp [notBorrow, flagByte, h]

/-- A binary digit, tested for 1 and held as a flag, is the digit. -/
theorem digit_flag_toNat (n : Nat) : (flagByte (decide (n % 2 = 1))).toNat = n % 2 := by
  rcases Nat.mod_two_eq_zero_or_one n with h | h <;> rw [h] <;> rfl

theorem lowBit_flag_toNat (a : Byte) : (flagByte (lowBit a)).toNat = a.toNat % 2 := digit_flag_toNat a.toNat

theorem topBit_flag_toNat (a : Byte) : (flagByte (topBit a)).toNat = a.toNat / 128 % 2 :=
  digit_flag_toNat (a.toNat / 128)

/-- The model adds 256 before it subtracts, to stay in the naturals: the residue is that of the integer difference. -/
theorem difference_toInt (a b : Byte) : ((difference a b).toNat : Int) = ((a.toNat : Int) - b.toNat) % 256 := by
  have := b.isLt
  rw [difference_toNat]
  omega

theorem narrow_half_toNat (a : Byte) : (narrow (a.toNat / 2)).toNat = a.toNat / 2 := by
  have := a.isLt
  rw [narrow_toNat]
  omega

/-! ### The two shapes of an ALU instruction -/

variable {i : Instr} {s : State} {x : Reg}

/-- An instruction that writes one register, and no flag (R100 to R105). -/
theorem exec_of_setV {b : Byte} {n : Nat} (hexec : exec i s = .next (s.setV x b)) (hb : b.toNat = n) :
    ∃ t, exec i s = .next t ∧ t.view (.v x) = n ∧ OnlyChanges s t fun p => p = .v x :=
  ⟨_, hexec, ((s.view_setV x b _).trans (if_pos rfl)).trans hb, onlyChanges_setV s x b⟩

/-- An instruction that writes a result and then its flag: the flag stands in every case, the result unless the flag
has overwritten it (R22, R106 to R110). -/
theorem exec_of_setResultFlag {r : Byte} {f : Bool} {n m : Nat} (hexec : exec i s = .next (s.setResultFlag x r f))
    (hr : r.toNat = n) (hf : (flagByte f).toNat = m) :
    ∃ t, exec i s = .next t ∧ (x ≠ VF → t.view (.v x) = n) ∧ t.view (.v VF) = m ∧
      OnlyChanges s t fun p => p = .v x ∨ p = .v VF :=
  ⟨_, hexec, fun hx => (congrArg BitVec.toNat (s.setResultFlag_result hx r f)).trans hr,
    (congrArg BitVec.toNat (s.setResultFlag_vf x r f)).trans hf, onlyChanges_setResultFlag s x r f⟩

/-- An instruction that subtracts, whichever register is the minuend (R107, R109). -/
theorem exec_of_difference {a b : Byte}
    (hexec : exec i s = .next (s.setResultFlag x (difference a b) (notBorrow a b))) :
    ∃ t, exec i s = .next t ∧ (x ≠ VF → (t.view (.v x) : Int) = ((a.toNat : Int) - b.toNat) % 256) ∧
      t.view (.v VF) = (if a.toNat < b.toNat then 0 else 1) ∧ OnlyChanges s t fun p => p = .v x ∨ p = .v VF := by
  obtain ⟨t, ht, hresult, hflag, hframe⟩ := exec_of_setResultFlag hexec rfl (notBorrow_flag_toNat a b)
  exact ⟨t, ht, fun hx => (congrArg Nat.cast (hresult hx)).trans (difference_toInt a b), hflag, hframe⟩

end Sys2Proof.Machine

namespace Sys2Proof

open Machine

/-- Settles O20: both write the loaded byte to `V[x]` and nothing else. -/
theorem registerLoads : Obligations.RegisterLoads := by
  intro x
  refine ⟨fun nn => ⟨?_, fun s => ?_⟩, fun y => ⟨?_, fun s => ?_⟩⟩
  · exact decodeWord_of_eq_encode rfl (wordXI_eq_formatXI 0x6 x nn)
  · exact exec_of_setV rfl rfl
  · exact decodeWord_of_eq_encode rfl (wordXY_eq_formatXY 0x8 0x0 x y)
  · exact exec_of_setV rfl rfl

/-- Settles O21: the sum is narrowed, and `V[x]` is the one register written. -/
theorem addImmediateWrapsWithoutFlag : Obligations.AddImmediateWrapsWithoutFlag := by
  intro x nn
  exact ⟨decodeWord_of_eq_encode rfl (wordXI_eq_formatXI 0x7 x nn), fun s => exec_of_setV rfl (narrow_toNat _)⟩

/-- Settles O22: each operation on bytes is the one on their unsigned values. -/
theorem logicOperationsLeaveTheFlag : Obligations.LogicOperationsLeaveTheFlag := by
  intro x y
  refine ⟨decodeWord_of_eq_encode rfl (wordXY_eq_formatXY 0x8 0x1 x y),
    decodeWord_of_eq_encode rfl (wordXY_eq_formatXY 0x8 0x2 x y),
    decodeWord_of_eq_encode rfl (wordXY_eq_formatXY 0x8 0x3 x y), fun s => ⟨?_, ?_, ?_⟩⟩
  · exact exec_of_setV rfl (BitVec.toNat_or (s.reg x) (s.reg y))
  · exact exec_of_setV rfl (BitVec.toNat_and (s.reg x) (s.reg y))
  · exact exec_of_setV rfl (BitVec.toNat_xor (s.reg x) (s.reg y))

/-- Settles O23: the narrowed sum is written first and the carry last. -/
theorem addSetsSumThenCarry : Obligations.AddSetsSumThenCarry := by
  intro x y
  refine ⟨decodeWord_of_eq_encode rfl (wordXY_eq_formatXY 0x8 0x4 x y), fun s => ?_⟩
  exact exec_of_setResultFlag rfl (narrow_toNat _) (carry_flag_toNat (s.reg x) (s.reg y))

/-- Settles O24: `SUB` and `SUBN` are one subtraction with the operands exchanged. -/
theorem subtractionsSetDifferenceThenNotBorrow : Obligations.SubtractionsSetDifferenceThenNotBorrow := by
  intro x y
  refine ⟨decodeWord_of_eq_encode rfl (wordXY_eq_formatXY 0x8 0x5 x y),
    decodeWord_of_eq_encode rfl (wordXY_eq_formatXY 0x8 0x7 x y), fun s => ⟨?_, ?_⟩⟩
  · exact exec_of_difference (a := s.reg x) (b := s.reg y) rfl
  · exact exec_of_difference (a := s.reg y) (b := s.reg x) rfl

/-- Settles O25: the flag is the digit of the old `V[x]` that the shift drops, written last. -/
theorem shiftsSetResultThenShiftedOutBit : Obligations.ShiftsSetResultThenShiftedOutBit := by
  intro x y s
  constructor
  · exact exec_of_setResultFlag rfl (narrow_half_toNat (s.reg x)) (lowBit_flag_toNat (s.reg x))
  · exact exec_of_setResultFlag rfl (narrow_toNat _) (topBit_flag_toNat (s.reg x))

end Sys2Proof
end

section
/-! SUPPORT. The index register and memory instructions (42_index_and_memory.md R120 to R126): what an instruction
answers that writes `I` alone, and what a block in memory holds after a store and the registers after a load. -/

namespace Sys2Proof

/-- The word of format `X` written as a sum is the word put together from its fields. -/
theorem wordX_eq_formatX (major : BitVec 4) (x : Reg) (minor : Byte) :
    wordX major.toNat x minor.toNat = formatX major x minor := by
  apply BitVec.eq_of_toNat_eq
  rw [wordX, BitVec.toNat_ofNat, formatX_toNat]
  omega

end Sys2Proof

namespace Sys2Proof.Machine

/-! ### `I` (R120 to R122) -/

/-- An instruction that writes `I` and nothing else. -/
theorem exec_of_setIndex {i : Instr} {s : State} {w : Word} {n : Nat} (hexec : exec i s = .next (s.setIndex w))
    (hw : w.toNat = n) : ∃ t, exec i s = .next t ∧ t.view .index = n ∧ OnlyChanges s t fun p => p = .index :=
  ⟨_, hexec, hw, onlyChanges_setIndex s w⟩

/-- Five times a byte fits in the 16 bits of `I` (R122, D21). -/
theorem fontAddress_toNat (b : Byte) : (BitVec.ofNat 16 (b.toNat * 5)).toNat = b.toNat * 5 := by
  rw [BitVec.toNat_ofNat]
  omega

/-! ### The store of the decimal digits (R123) -/

/-- A byte read back from a block just written. -/
theorem Memory.read_writeBytes_add (m : Mem) (base : Nat) {bs : List Byte} {k : Nat} (hk : k < bs.length) :
    Memory.read (Memory.writeBytes m base bs) (base + k) = bs.getD k 0 := by
  rw [Memory.read_writeBytes, if_pos (by omega), Nat.add_sub_cancel_left]

/-- Each digit fits in its byte. -/
theorem bcdDigits_map_toNat (b : Byte) :
    (bcdDigits b).map BitVec.toNat = [b.toNat / 100, b.toNat / 10 % 10, b.toNat % 10] := by
  have := b.isLt
  simp only [bcdDigits, List.map_cons, List.map_nil, BitVec.toNat_ofNat, List.cons.injEq, and_true]
  omega

/-- The state after `Fx33`: the three digits of `V[x]` written from `I` on (R123). -/
def State.storeBcd (s : State) (x : Reg) : State :=
  s.setMem (Memory.writeBytes s.mem (baseAddr s) (bcdDigits (s.reg x)))

/-- `Fx33` completes where its last byte is in memory (R123, D1). -/
theorem exec_ldBcd {s : State} {x : Reg} (h : s.index.toNat + 2 ≤ 4095) :
    exec (.ldBcd x) s = .next (s.storeBcd x) := by
  have hrange : baseAddr s + (bcdDigits (s.reg x)).length ≤ 4096 := Nat.succ_le_succ h
  have hwrite : memWrite s.mem (baseAddr s) (bcdDigits (s.reg x)) = .ok (s.storeBcd x).mem :=
    (memWrite_eq _ _ _).trans (if_pos (.inr hrange))
  exact congrArg (orRaise · fun m => .next (s.setMem m)) hwrite

/-- After `Fx33` the byte at `I + k` is digit `k` of `V[x]`, the hundreds first (R123). -/
theorem State.view_storeBcd (s : State) (x : Reg) {k : Nat} (hk : k < 3) :
    (s.storeBcd x).view (.mem (baseAddr s + k)) =
      [s.view (.v x) / 100, s.view (.v x) / 10 % 10, s.view (.v x) % 10].getD k 0 := by
  calc (s.storeBcd x).view (.mem (baseAddr s + k))
    _ = ((bcdDigits (s.reg x)).getD k 0).toNat := congrArg BitVec.toNat (Memory.read_writeBytes_add _ _ hk)
    _ = ((bcdDigits (s.reg x)).map BitVec.toNat).getD k 0 := (List.getD_map _ 0 BitVec.toNat).symm
    _ = _ := by rw [bcdDigits_map_toNat, State.view_v]

/-! ### The block load (R125) -/

/-- The state after `Fx65`: the `x + 1` bytes from `I` on put into `V[0]` to `V[x]` (R125). -/
def State.loadRegs (s : State) (x : Reg) : State :=
  s.setVs (loadInto s.v 0 (Memory.readBytes s.mem (baseAddr s) (x.val + 1)))

/-- `Fx65` completes where its last byte is in memory (R125, D1). -/
theorem exec_loadRegs {s : State} {x : Reg} (h : s.index.toNat + x.val ≤ 4095) :
    exec (.loadRegs x) s = .next (s.loadRegs x) := by
  have hrange : baseAddr s + (x.val + 1) ≤ 4096 := Nat.succ_le_succ h
  have hread : memRead s.mem (baseAddr s) (x.val + 1) =
      .ok (Memory.readBytes s.mem (baseAddr s) (x.val + 1)) :=
    (memRead_eq _ _ _).trans (if_pos (.inr hrange))
  exact congrArg (orRaise · fun bytes => .next (s.setVs (loadInto s.v 0 bytes))) hread

/-- After `Fx65` register `V[k]` is the byte at `I + k`, for each `k` up to `x` (R125). -/
theorem State.loadRegs_reg {s : State} {x k : Reg} (hk : k ≤ x) :
    (s.loadRegs x).reg k = Memory.read s.mem (s.index.toNat + k.val) := by
  have hlt : k.val < x.val + 1 := Nat.lt_succ_of_le hk
  have hin : 0 ≤ k.val ∧ k.val < 0 + (Memory.readBytes s.mem (baseAddr s) (x.val + 1)).length := by
    rw [Memory.readBytes_length]
    omega
  exact (loadInto_getElem _ _ _ _ k.isLt).trans ((if_pos hin).trans (Memory.readBytes_getD _ _ hlt))

end Sys2Proof.Machine

namespace Sys2Proof

open Machine

/-- Settles O32: the load reads the bytes that the store left, whatever the registers hold by then. -/
theorem storeThenLoadRestoresRegisters : Obligations.StoreThenLoadRestoresRegisters := by
  intro x s hrange
  refine ⟨s.storeRegs x, exec_storeRegs hrange, fun t' hmem hindex => ?_⟩
  have hrange' : t'.index.toNat + x.val ≤ 4095 := hindex ▸ hrange
  refine ⟨t'.loadRegs x, exec_loadRegs hrange', fun k hk => congrArg BitVec.toNat ?_⟩
  calc (t'.loadRegs x).reg k
    _ = Memory.read t'.mem (t'.index.toNat + k.val) := State.loadRegs_reg hk
    _ = Memory.read (s.storeRegs x).mem (s.index.toNat + k.val) := by rw [hmem, hindex]
    _ = s.reg k := State.storeRegs_read hk

/-- Settles O26: the literal zero-extended is `nnn` itself. -/
theorem loadIndexSetsI : Obligations.LoadIndexSetsI := by
  intro nnn
  exact ⟨decodeWord_of_eq_encode rfl (wordA_eq_formatA 0xA nnn), fun s => exec_of_setIndex rfl (literalWord_toNat nnn)⟩

/-- Settles O27: the sum is cut to the 16 bits of `I`. -/
theorem addIndexWrapsAtSixteenBits : Obligations.AddIndexWrapsAtSixteenBits := by
  intro x
  exact ⟨decodeWord_of_eq_encode rfl (wordX_eq_formatX 0xF x 0x1E),
    fun s => exec_of_setIndex rfl (BitVec.toNat_ofNat _ _)⟩

/-- Settles O28: the product fits in 16 bits. -/
theorem fontAddressIsFiveTimesVx : Obligations.FontAddressIsFiveTimesVx := by
  intro x
  exact ⟨decodeWord_of_eq_encode rfl (wordX_eq_formatX 0xF x 0x29),
    fun s => exec_of_setIndex rfl (fontAddress_toNat (s.reg x))⟩

/-- Settles O29: the three bytes are the digits, and the frame is that of `LD B`. -/
theorem bcdStoresThreeDigits : Obligations.BcdStoresThreeDigits := by
  intro x
  refine ⟨decodeWord_of_eq_encode rfl (wordX_eq_formatX 0xF x 0x33), fun s hrange => ?_⟩
  have hexec : exec (.ldBcd x) s = .next (s.storeBcd x) := exec_ldBcd hrange
  exact ⟨_, hexec, s.view_storeBcd x (k := 0) (by decide), s.view_storeBcd x (k := 1) (by decide),
    s.view_storeBcd x (k := 2) (by decide), exec_frame hexec⟩

/-- Settles O30: each byte of the block is its register, and the frame is that of `LD [I], Vx`. -/
theorem storeRegistersWritesTheBlock : Obligations.StoreRegistersWritesTheBlock := by
  intro x
  refine ⟨decodeWord_of_eq_encode rfl (wordX_eq_formatX 0xF x 0x55), fun s hrange => ?_⟩
  have hexec : exec (.storeRegs x) s = .next (s.storeRegs x) := exec_storeRegs hrange
  exact ⟨_, hexec, fun _ hk => congrArg BitVec.toNat (State.storeRegs_read hk), exec_frame hexec⟩

/-- Settles O31: each register of the block is its byte, and the frame is that of `LD Vx, [I]`. -/
theorem loadRegistersReadsTheBlock : Obligations.LoadRegistersReadsTheBlock := by
  intro x
  refine ⟨decodeWord_of_eq_encode rfl (wordX_eq_formatX 0xF x 0x65), fun s hrange => ?_⟩
  have hexec : exec (.loadRegs x) s = .next (s.loadRegs x) := exec_loadRegs hrange
  exact ⟨_, hexec, fun _ hk => congrArg BitVec.toNat (State.loadRegs_reg hk), exec_frame hexec⟩

end Sys2Proof
end

section
/-! SUPPORT. The display instructions (43_display.md R130 to R132): the state after `DRW`, written out, and the pixels
it flips; a sprite drawn a second time; and that `DRW` alone reports `fb_changed`. -/

namespace Sys2Proof.Machine

/-! ### The state after `DRW` (R131) -/

/-- The sprite of `n` rows: the bytes from `I` on (R131, C7). -/
def State.sprite (s : State) (n : Nat) : List Byte := Memory.readBytes s.mem (baseAddr s) n

/-- What drawing the sprite makes of the display, and whether a set pixel was hit (R131). -/
def State.drawn (s : State) (x y : Reg) (n : Nat) : Bitmap × Bool :=
  drawRows (regNat s x) (regNat s y) 0 (s.sprite n) (s.disp, false)

/-- The state after `Dxyn`: the sprite drawn, the collision in `VF`, `fb_changed` true (R131, R132). -/
def State.draw (s : State) (x y : Reg) (n : Nat) : State :=
  ((s.setDisp (s.drawn x y n).1).setV VF (flagByte (s.drawn x y n).2)).setFb true

theorem bool_toNat_not (b : Bool) : (!b).toNat = 1 - b.toNat := by
  cases b <;> rfl

section
variable {s : State} {x y : Reg} {n : Nat}

/-- `Dxyn` completes where its last row is in memory, or it has none (R131, D1). -/
theorem exec_drw (h : n = 0 ∨ s.index.toNat + n - 1 ≤ 4095) : exec (.drw x y n) s = .next (s.draw x y n) := by
  have hrange : n = 0 ∨ baseAddr s + n ≤ 4096 := h.imp_right fun h => by
    rw [baseAddr]
    omega
  have hread : memRead s.mem (baseAddr s) n = .ok (s.sprite n) := (memRead_eq _ _ _).trans (if_pos hrange)
  change execDrw x y n s = _
  rw [execDrw, hread, orRaise_ok]
  rfl

/-- The bits of the sprite's bytes are the digits of the bytes in memory. -/
theorem hit_sprite_iff (r : Row) (c : Col) :
    Hit (regNat s x) (regNat s y) 0 (s.sprite n) r c ↔ SpriteSets s x y n r c := by
  refine exists_congr fun row => exists_congr fun col => ?_
  rw [State.sprite, Memory.readBytes_length, Nat.zero_add]
  refine and_congr_right fun hrow => and_congr_right fun _ => ?_
  rw [Memory.readBytes_getD s.mem (baseAddr s) hrow, spriteBit_iff]
  exact ⟨fun ⟨hbit, hr, hc⟩ => ⟨hr, hc, hbit⟩, fun ⟨hr, hc, hbit⟩ => ⟨hbit, hr, hc⟩⟩

/-- A sprite of a decoded `Dxyn` has fewer rows than the display, so that no two of its rows meet (R131). -/
theorem State.drawn_draws (hn : n ≤ 15) : Draws (SpriteSets s x y n) (s.disp, false) (s.drawn x y n) := by
  have hlen : (s.sprite n).length ≤ 32 := by
    rw [State.sprite, Memory.readBytes_length]
    omega
  have hits : Hit (regNat s x) (regNat s y) 0 (s.sprite n) = SpriteSets s x y n :=
    funext₂ fun r c => propext (hit_sprite_iff r c)
  exact hits ▸ drawRows_draws _ _ 0 _ hlen _

/-- After `Dxyn` the flag register tells whether a pixel that was set was hit (R131). -/
theorem State.view_draw_vf : (s.draw x y n).view (.v VF) = if (s.drawn x y n).2 then 1 else 0 :=
  (congrArg BitVec.toNat (State.reg_setV_same _ VF _)).trans (flagByte_toNat _)

/-- `DRW` changes pixels, `VF` and `fb_changed`, and nothing else (R131, R132). -/
theorem State.draw_frame :
    OnlyChanges s (s.draw x y n) fun p => (∃ r c, p = .pixel r c) ∨ p = .v VF ∨ p = .fbChanged :=
  (((onlyChanges_setDisp s _).trans (onlyChanges_setV _ VF _)).trans (onlyChanges_setFb _ true)).mono
    fun _ => or_assoc.mp

/-! ### The second draw (R131) -/

/-- With neither position register `VF`, a draw leaves the sprite and its position as they were. -/
theorem spriteSets_draw (hx : x ≠ VF) (hy : y ≠ VF) : SpriteSets (s.draw x y n) x y n = SpriteSets s x y n := by
  have hvx : (s.draw x y n).view (.v x) = s.view (.v x) := congrArg BitVec.toNat (State.reg_setV_other _ _ hx)
  have hvy : (s.draw x y n).view (.v y) = s.view (.v y) := congrArg BitVec.toNat (State.reg_setV_other _ _ hy)
  unfold SpriteSets
  rw [hvx, hvy]
  rfl

end

/-- Drawing on the same pixels twice leaves the display as it was. -/
theorem Draws.restores {hit : Row → Col → Prop} {d₀ d₁ d₂ : Bitmap} {f₀ f₁ f₁' f₂ : Bool}
    (first : Draws hit (d₀, f₀) (d₁, f₁)) (second : Draws hit (d₁, f₁') (d₂, f₂)) (r : Row) (c : Col) :
    Bitmap.pixel d₂ r c = Bitmap.pixel d₀ r c := by
  by_cases h : hit r c
  · calc Bitmap.pixel d₂ r c
      _ = !Bitmap.pixel d₁ r c := second.flips r c h
      _ = !!Bitmap.pixel d₀ r c := congrArg not (first.flips r c h)
      _ = Bitmap.pixel d₀ r c := Bool.not_not _
  · exact (second.keeps r c h).trans (first.keeps r c h)

theorem Bitmap.eq_of_pixel_eq {d e : Bitmap} (h : ∀ r c, Bitmap.pixel d r c = Bitmap.pixel e r c) : d = e :=
  Vector.ext fun r hr => Vector.ext fun c hc => h ⟨r, hr⟩ ⟨c, hc⟩

/-! ### Who reports `fb_changed` (R132) -/

theorem eq_drw_of_writes_fbChanged {i : Instr} {s : State} (h : Writes i s .fbChanged) : ∃ x y n, i = .drw x y n := by
  cases i with
  | drw x y n => exact ⟨x, y, n, rfl⟩
  | _ => simp [Writes] at h

/-- A draw that completes reports a changed display. -/
theorem fbChanged_of_exec_drw {x y : Reg} {n : Nat} {s t : State} (h : exec (.drw x y n) s = .next t) :
    t.fbChanged = true := by
  obtain ⟨_, _, hk⟩ := orRaise_next h
  cases hk
  rfl

/-- A step that completes reports a changed display exactly if it ran a draw (R132, D20). -/
theorem step_fbChanged_iff {s t : State} (h : step s = .next t) :
    t.fbChanged = true ↔ ∃ x y n, s.Runs (.drw x y n) := by
  constructor
  · intro hfb
    rcases step_next_runs h with rfl | ⟨i, hruns, hexec⟩
    · cases hfb
    · have hwrites : Writes i s.fetched .fbChanged := by
        by_contra hw
        have hkept : t.view .fbChanged = 0 := exec_frame hexec .fbChanged hw
        rw [State.view_fbChanged, hfb] at hkept
        cases hkept
      obtain ⟨x, y, n, rfl⟩ := eq_drw_of_writes_fbChanged hwrites
      exact ⟨x, y, n, hruns⟩
  · rintro ⟨x, y, n, hruns⟩
    exact fbChanged_of_exec_drw ((step_of_runs hruns).symm.trans h)

/-- A step reports its result bit exactly if it completes (R80, R151). -/
theorem perform_step_fbChanged_iff {s : State} {b : Bool} :
    (perform .step s).2 = .fbChanged b ↔ ∃ t, step s = .next t ∧ t.fbChanged = b := by
  rw [perform]
  cases step s with
  | next t => simp [settle]
  | fault f => simp [settle]
  | refused q => simp [settle]

end Sys2Proof.Machine

namespace Sys2Proof

open Machine

/-- The word of `Dxyn` written as a sum is the encoding: `n` fits in its nibble (R61, R62). -/
theorem wordXY_eq_encode_drw (x y : Reg) {n : Nat} (hn : n ≤ 15) : wordXY 0xD x y n = encode (.drw x y n) := by
  have hnibble : (BitVec.ofNat 4 n).toNat = n := Nat.mod_eq_of_lt (Nat.lt_succ_of_le hn)
  have hword := wordXY_eq_formatXY 0xD (BitVec.ofNat 4 n) x y
  rwa [hnibble] at hword

/-- Settles O10: a step reports the bit of the state it answers, and only `DRW` sets that. -/
theorem fbChangedExactlyAfterDraw : Obligations.FbChangedExactlyAfterDraw := by
  refine fun s => ⟨perform_step_fbChanged_iff.trans ⟨?_, ?_⟩, rfl⟩
  · rintro ⟨t, hstep, hfb⟩
    obtain ⟨x, y, n, hruns⟩ := (step_fbChanged_iff hstep).mp hfb
    exact ⟨x, y, n, t, hruns, hstep⟩
  · rintro ⟨x, y, n, t, hruns, hstep⟩
    exact ⟨t, hstep, (step_fbChanged_iff hstep).mpr ⟨x, y, n, hruns⟩⟩

/-- Settles O35: the state after `DRW` is written out, and its display and flag are those of one draw of the sprite. -/
theorem drawXorsTheSpriteAndReportsCollision : Obligations.DrawXorsTheSpriteAndReportsCollision := by
  intro x y n hn
  refine ⟨decodeWord_of_eq_encode (decide_eq_true hn) (wordXY_eq_encode_drw x y hn), fun s hrange => ?_⟩
  have hdraws : Draws (SpriteSets s x y n) (s.disp, false) (s.drawn x y n) := State.drawn_draws hn
  refine ⟨s.draw x y n, exec_drw hrange, fun r c hit => ?flips, fun r c hmiss => ?keeps, ?hit, ?noHit, rfl,
    State.draw_frame⟩
  case flips => exact (congrArg Bool.toNat (hdraws.flips r c hit)).trans (bool_toNat_not _)
  case keeps => exact congrArg Bool.toNat (hdraws.keeps r c hmiss)
  case hit =>
    rintro ⟨r, c, hit, hset⟩
    exact State.view_draw_vf.trans (if_pos (hdraws.flag.mpr (.inr ⟨r, c, hit, Bool.toNat_eq_one.mp hset⟩)))
  case noHit =>
    intro hclear
    refine State.view_draw_vf.trans (if_neg fun hflag => ?_)
    obtain hfalse | ⟨r, c, hit, hset⟩ := hdraws.flag.mp hflag
    · cases hfalse
    · exact absurd ((hclear r c hit).symm.trans (Bool.toNat_eq_one.mpr hset)) Nat.zero_ne_one

/-- Settles O36: the second draw hits the same pixels, and a pixel flipped twice is as it was. -/
theorem drawingTwiceRestoresTheDisplay : Obligations.DrawingTwiceRestoresTheDisplay := by
  intro x y n s hn hx hy hrange
  have hfirst : Draws (SpriteSets s x y n) (s.disp, false) (s.drawn x y n) := State.drawn_draws hn
  have hsecond : Draws (SpriteSets (s.draw x y n) x y n) ((s.draw x y n).disp, false) ((s.draw x y n).drawn x y n) :=
    State.drawn_draws hn
  rw [spriteSets_draw hx hy] at hsecond
  exact ⟨_, _, exec_drw hrange, exec_drw hrange, Bitmap.eq_of_pixel_eq (hfirst.restores hsecond)⟩

/-- Settles O34: the display is replaced by the clear one. -/
theorem clsClearsEveryPixel : Obligations.ClsClearsEveryPixel :=
  ⟨rfl, fun s => ⟨s.setDisp Bitmap.clear, rfl, fun r c => congrArg Bool.toNat (Bitmap.pixel_clear r c), rfl,
    onlyChanges_setDisp s _⟩⟩

end Sys2Proof
end

section
/-! SUPPORT. The random, keypad and timer instructions (44_keypad_timer_random.md R140 to R146): the bits a mask leaves,
what the skips on a key answer where the key exists, which key `Fx0A` takes, and what its rewind makes of the step. -/

namespace Sys2Proof.Machine

/-- A masked byte has no bit outside its mask (R140). -/
theorem and_mask_and_not_mask (b nn : Byte) : b &&& nn &&& ~~~nn = 0 := by
  rw [BitVec.and_assoc, BitVec.and_not_self]
  exact BitVec.and_zero

section
variable {s : State} {x : Reg} {k : Key}

/-! ### Key levels (10_state.md R28) -/

theorem pressed_iff_view : s.pressed k = true ↔ s.view (.key k) = 1 := Bool.toNat_eq_one.symm

theorem not_pressed_iff_view : (!s.pressed k) = true ↔ s.view (.key k) = 0 :=
  (Bool.not_eq_true' _).to_iff.trans Bool.toNat_eq_zero.symm

/-! ### The skips on a key (R141, R142) -/

/-- A register that holds a key's number names that key (D2). -/
theorem keyOperand_of_view (h : s.view (.v x) = k.val) : keyOperand s x = .ok k :=
  (keyOperand_ok (h.trans_lt k.isLt)).trans (congrArg Except.ok (Fin.ext h))

theorem exec_skp (h : s.view (.v x) = k.val) : exec (.skp x) s = .next (s.skipIf (s.pressed k)) :=
  congrArg (orRaise · fun k => .next (s.skipIf (s.pressed k))) (keyOperand_of_view h)

theorem exec_sknp (h : s.view (.v x) = k.val) : exec (.sknp x) s = .next (s.skipIf (!s.pressed k)) :=
  congrArg (orRaise · fun k => .next (s.skipIf (!s.pressed k))) (keyOperand_of_view h)

/-! ### The key wait (R144) -/

/-- The scan from the lowest number up stops at the first key that is pressed. -/
theorem lowestKey_eq_some (hk : s.view (.key k) = 1) (hlower : ∀ j : Key, j < k → s.view (.key j) = 0) :
    s.lowestKey = some k := by
  refine List.find?_eq_some_iff_getElem.mpr ⟨pressed_iff_view.mpr hk, k.val, by simp, by simp, fun j hj => ?_⟩
  rw [List.getElem_finRange]
  exact not_pressed_iff_view.mpr (hlower _ hj)

theorem lowestKey_eq_none (h : ∀ k : Key, s.view (.key k) = 0) : s.lowestKey = none :=
  List.find?_eq_none.mpr fun k _ hk => Nat.zero_ne_one ((h k).symm.trans (pressed_iff_view.mp hk))

theorem exec_ldKey_of_some (h : s.lowestKey = some k) : exec (.ldKey x) s = .next (s.setV x (narrow k.val)) := by
  change execLdKey x s = _
  rw [execLdKey, h]

theorem exec_ldKey_of_none (h : s.lowestKey = none) : exec (.ldKey x) s = .next s.rewind := by
  change execLdKey x s = _
  rw [execLdKey, h]

/-- A key's number fits in a register. -/
theorem narrow_key_toNat (k : Key) : (narrow k.val).toNat = k.val :=
  (narrow_toNat _).trans (Nat.mod_eq_of_lt (Nat.lt_trans k.isLt (by decide)))

/-- The rewind takes back the fetch's advance of `pc`: of the fetch only `fb_changed` is left. -/
theorem State.rewind_fetched (s : State) : s.fetched.rewind = s.setFb false := by
  calc s.fetched.rewind
    _ = (s.setFb false).setPc (s.pc + 2 - 2) := rfl
    _ = s.setFb false := by
      rw [BitVec.add_sub_cancel]
      rfl

end

end Sys2Proof.Machine

namespace Sys2Proof

open Machine

/-- Settles O39: the scan finds the lowest pressed key, or no key and the rewind undoes the fetch. -/
theorem keyWaitTakesLowestKeyOrRewinds : Obligations.KeyWaitTakesLowestKeyOrRewinds := by
  intro x
  refine ⟨decodeWord_of_eq_encode rfl (wordX_eq_formatX 0xF x 0x0A), fun s k hk hlower => ?taken,
    fun s hnone => ?rewound, fun s hruns hnone => ?wholeStep⟩
  case taken => exact exec_of_setV (exec_ldKey_of_some (lowestKey_eq_some hk hlower)) (narrow_key_toNat k)
  case rewound => exact ⟨s.rewind, exec_ldKey_of_none (lowestKey_eq_none hnone), rfl, onlyChanges_setPc s _⟩
  case wholeStep =>
    have hfetched : s.fetched.lowestKey = none := lowestKey_eq_none (s := s.fetched) hnone
    have hstep : step s = .next (s.setFb false) := by
      rw [step_of_runs hruns, exec_ldKey_of_none hfetched, State.rewind_fetched]
    exact ⟨s.setFb false, hstep, rfl, onlyChanges_setFb s false⟩

/-- Settles O38: both are skips, on the level of the key that `V[x]` names. -/
theorem keySkipsReadTheKeyLevel : Obligations.KeySkipsReadTheKeyLevel := by
  intro x
  refine ⟨decodeWord_of_eq_encode rfl (wordX_eq_formatX 0xE x 0x9E),
    decodeWord_of_eq_encode rfl (wordX_eq_formatX 0xE x 0xA1), fun s k hk => ⟨?_, ?_⟩⟩
  · exact exec_of_skipIf (exec_skp hk) pressed_iff_view
  · exact exec_of_skipIf (exec_sknp hk) not_pressed_iff_view

/-- Settles O37: the masked byte is written to `V[x]`, then the counter of random bytes goes up by one. -/
theorem randomByteIsMasked : Obligations.RandomByteIsMasked := by
  intro x nn
  refine ⟨decodeWord_of_eq_encode rfl (wordXI_eq_formatXI 0xC x nn), fun s => ?_⟩
  have hreg : ((s.setV x (s.rand &&& nn)).consumeRand).reg x = s.rand &&& nn := State.reg_setV_same s x _
  refine ⟨_, rfl, hreg, ?_, rfl, (onlyChanges_setV s x _).trans (onlyChanges_setDraws _ _)⟩
  rw [hreg, and_mask_and_not_mask]

/-- Settles O40: each transfer writes the one register or timer, whole. -/
theorem timerTransfers : Obligations.TimerTransfers := by
  intro x
  refine ⟨decodeWord_of_eq_encode rfl (wordX_eq_formatX 0xF x 0x07),
    decodeWord_of_eq_encode rfl (wordX_eq_formatX 0xF x 0x15),
    decodeWord_of_eq_encode rfl (wordX_eq_formatX 0xF x 0x18), fun s => ⟨?_, ?_, ?_⟩⟩
  · exact exec_of_setV rfl rfl
  · exact ⟨s.setDt (s.reg x), rfl, rfl, onlyChanges_setDt s _⟩
  · exact ⟨s.setSt (s.reg x), rfl, rfl, onlyChanges_setSt s _⟩

end Sys2Proof
end

section
/-! SUPPORT. Which operations fault, and when (60_exceptions.md R150, R151, R155): everything a step can answer in the
order of its checks, and apply-or-reject for the operations; then the ports of the host (R159 to R162). -/

namespace Sys2Proof.Machine

section
variable {i : Instr} {s : State} {f : Fault}

/-! ### The fault of an instruction (R150) -/

/-- An instruction raises exactly the fault listed for it. -/
theorem exec_fault_iff : exec i s = .fault f ↔ faultIn i s = some f := by
  refine ⟨faultIn_of_exec_fault, fun hlist => ?_⟩
  rcases exec_answersAsListed i s with ⟨hnone, -⟩ | ⟨g, hg, hexec⟩
  · cases hnone.symm.trans hlist
  · cases hg.symm.trans hlist
    exact hexec

theorem exec_completes (h : faultIn i s = none) : ∃ t, exec i s = .next t := by
  rcases exec_answersAsListed i s with ⟨-, hnext⟩ | ⟨g, hg, -⟩
  · exact hnext
  · cases h.symm.trans hg

theorem exec_ne_refused (r : Refusal) : exec i s ≠ .refused r := by
  intro h
  rcases exec_answersAsListed i s with ⟨-, t, ht⟩ | ⟨g, -, hg⟩
  · cases ht.symm.trans h
  · cases hg.symm.trans h

/-! ### The answers of a step, in the order of its checks (R80, R155) -/

/-- Which check a step ends at, and what it answers there. -/
inductive StepEnds (s : State) : Prop where
  | paused (pause : s.pause = true) (step : step s = .next (s.setFb false))
  | fetch (pause : s.pause = false) (pc : 4094 < s.pc.toNat) (step : step s = .fault (.addressOutOfRange s.pc.toNat))
  | decode (fetches : s.Fetches) (illegal : decodeWord s.nextWord = none)
      (step : step s = .fault (.unimplementedOpcode s.nextWord))
  | execute {i : Instr} (runs : s.Runs i) (step : step s = exec i s.fetched)

theorem step_ends (s : State) : StepEnds s := by
  cases hpause : s.pause with
  | true => exact .paused hpause (step_paused hpause)
  | false =>
    by_cases hpc : s.pc.toNat ≤ 4094
    · cases hword : decodeWord s.nextWord with
      | none => exact .decode ⟨hpause, hpc⟩ hword (step_of_decodeWord_none ⟨hpause, hpc⟩ hword)
      | some i => exact .execute ⟨⟨hpause, hpc⟩, hword⟩ (step_of_runs ⟨⟨hpause, hpc⟩, hword⟩)
    · exact .fetch hpause (Nat.lt_of_not_le hpc) (step_fetch_fault hpause (Nat.lt_of_not_le hpc))

theorem step_ne_refused (r : Refusal) : step s ≠ .refused r := by
  intro h
  cases step_ends s with
  | paused _ hstep | fetch _ _ hstep | decode _ _ hstep => cases hstep.symm.trans h
  | execute _ hstep => exact exec_ne_refused r (hstep.symm.trans h)

/-! ### Apply or reject (R151) -/

/-- A rejected result leaves the state before it, where what is reported of a completed one is no fault. -/
theorem settle_fst_of_fault {old : State} {r : Result} {report : State → Response}
    (hreport : ∀ t, report t ≠ .fault f) (h : (settle old r report).2 = .fault f) : (settle old r report).1 = old := by
  cases r with
  | next t => exact absurd h (hreport t)
  | fault | refused => rfl

theorem perform_step_of_next {t : State} (h : step s = .next t) : perform .step s = (t, .fbChanged t.fbChanged) := by
  rw [perform, h, settle]

/-! ### The timer tick (R159) -/

theorem countDown_toNat (b : Byte) : (countDown b).toNat = if b.toNat > 0 then b.toNat - 1 else 0 := by
  unfold countDown
  by_cases hb : b = 0
  · subst hb
    rfl
  · have hpos : b.toNat > 0 := Nat.pos_of_ne_zero fun h0 => hb (BitVec.eq_of_toNat_eq h0)
    rw [if_neg hb, if_pos hpos]
    bv_omega

theorem perform_tickTimers_paused (h : s.pause = true) : perform .tickTimers s = (s, .beep false) := by
  simp only [perform, tickTimers, h, if_true]

/-- A tick of a machine that is not paused counts down both timers, and beeps where `ST` is 1. -/
theorem perform_tickTimers_running (h : s.pause = false) :
    perform .tickTimers s = ((s.setDt (countDown s.dt)).setSt (countDown s.st), .beep (decide (s.view .st = 1))) := by
  have hbeep : (s.st == 1) = decide (s.view .st = 1) :=
    Bool.eq_iff_iff.mpr ((beq_iff_toNat_eq s.st 1).trans decide_eq_true_iff.symm)
  simp only [perform, tickTimers, h, Bool.false_eq_true, if_false, hbeep]

end

end Sys2Proof.Machine

namespace Sys2Proof

open Machine

/-- Settles O8: a fault of the step names the check it ended at, and each check faults on its own condition. -/
theorem stepFaultsInPriorityOrder : Obligations.StepFaultsInPriorityOrder := by
  refine fun s => ⟨fun f => ⟨fun h => ?_, ?_⟩, step_ne_refused⟩
  · cases step_ends s with
    | paused _ hstep => cases hstep.symm.trans h
    | fetch hpause hpc hstep =>
      cases hstep.symm.trans h
      exact ⟨hpause, .inl ⟨hpc, rfl⟩⟩
    | decode hfetches hillegal hstep =>
      obtain ⟨hpause, hpc⟩ := hfetches
      cases hstep.symm.trans h
      exact ⟨hpause, .inr (.inl ⟨hpc, hillegal, rfl⟩)⟩
    | @execute i hruns hstep =>
      obtain ⟨⟨hpause, hpc⟩, hword⟩ := hruns
      exact ⟨hpause, .inr (.inr ⟨i, hpc, hword, exec_fault_iff.mp (hstep.symm.trans h)⟩)⟩
  · rintro ⟨hpause, ⟨hpc, rfl⟩ | ⟨hpc, hillegal, rfl⟩ | ⟨i, hpc, hword, hfault⟩⟩
    · exact step_fetch_fault hpause hpc
    · exact step_of_decodeWord_none ⟨hpause, hpc⟩ hillegal
    · exact (step_of_runs ⟨⟨hpause, hpc⟩, hword⟩).trans (exec_fault_iff.mpr hfault)

/-- Settles O41: every instruction answers as R150 lists. -/
theorem instructionsFaultExactlyAsListed : Obligations.InstructionsFaultExactlyAsListed :=
  fun _ _ => ⟨fun _ => exec_fault_iff, exec_completes⟩

/-- Settles O42: only a step and a load can be rejected, and what is rejected gives the state back. -/
theorem faultingOperationLeavesTheState : Obligations.FaultingOperationLeavesTheState := by
  intro o s f h
  have hrejected : (perform o s).1 = s ∧ (o = .step ∨ ∃ bytes, o = .load bytes) := by
    cases o with
    | step => exact ⟨settle_fst_of_fault nofun h, .inl rfl⟩
    | load bytes => exact ⟨settle_fst_of_fault nofun h, .inr ⟨bytes, rfl⟩⟩
    | create | reset | setKey | tickTimers | display | readPause | writePause => cases h
  obtain ⟨hstate, hop⟩ := hrejected
  exact ⟨hstate, congrArg (perform o) hstate, hop⟩

/-- Settles O49: a running tick writes both timers, each counted down. -/
theorem tickCountsBothTimersDown : Obligations.TickCountsBothTimersDown :=
  fun s => ⟨perform_tickTimers_paused, fun hpause => ⟨_, perform_tickTimers_running hpause,
    countDown_toNat s.dt, countDown_toNat s.st, (onlyChanges_setDt s _).trans (onlyChanges_setSt _ _)⟩⟩

/-- Settles O50: the port writes the one key's level, without a look at `pause`. -/
theorem setKeyChangesOneKey : Obligations.SetKeyChangesOneKey :=
  fun k pressed s => ⟨s.setKey k pressed, rfl, (s.view_setKey k pressed _).trans (if_pos rfl),
    onlyChanges_setKey s k pressed⟩

/-- Settles O51: the bitmap answered is the state's own. -/
theorem displayReturnsTheBitmap : Obligations.DisplayReturnsTheBitmap :=
  fun s => ⟨s.disp, rfl, fun r c => (s.view_pixel r c).symm⟩

/-- Settles O52: a paused step writes the report bit alone, and a paused tick nothing. -/
theorem pauseGatesStepAndTick : Obligations.PauseGatesStepAndTick := by
  refine fun s => ⟨rfl, fun b => ⟨s.setPause b, rfl, rfl, onlyChanges_setPause s b⟩, fun hpause => ?_, rfl⟩
  have hstep : perform .step s = (s.setFb false, .fbChanged false) := perform_step_of_next (step_paused hpause)
  rw [hstep]
  exact ⟨rfl, onlyChanges_setFb s false, perform_tickTimers_paused hpause⟩

end Sys2Proof
end

section
/-! SUPPORT. The lifecycle operations and the bounded runs (70_reset_and_hazards.md R180 to R189): what `load` answers
on either side of its limit, the self-jump, and the run of the machine with no ROM. -/

namespace Sys2Proof.Machine

/-! ### The load of a ROM (R182) -/

section
variable {bytes : List Byte} (s : State)

theorem perform_load_of_fits (h : bytes.length ≤ 3584) :
    perform (.load bytes) s = (s.setMem (Memory.writeBytes s.mem 0x200 bytes), .done) :=
  congrArg (settle s · fun _ => .done) (if_pos h)

theorem perform_load_of_too_long (h : bytes.length > 3584) :
    perform (.load bytes) s = (s, .fault (.romTooLarge bytes.length)) :=
  congrArg (settle s · fun _ => .done) (if_neg (Nat.not_le_of_gt h))

end

/-! ### The self-jump (R188) -/

/-- A jump to its own address undoes the fetch's advance of `pc`, so that only the report bit is written. -/
theorem step_of_selfJump {s : State} {nnn : Addr12} (h : s.Runs (.jp nnn)) (hself : nnn.toNat = s.view .pc) :
    step s = .next (s.setFb false) := by
  have htarget : literalWord nnn = s.pc := BitVec.eq_of_toNat_eq ((literalWord_toNat nnn).trans hself)
  calc step s
    _ = .next (s.fetched.setPc (literalWord nnn)) := step_of_runs h
    _ = .next (s.fetched.setPc s.pc) := by rw [htarget]
    _ = .next (s.setFb false) := rfl

/-! ### The run with no ROM (R189) -/

/-- Reset memory above the font is zero (R32). -/
theorem reset_read_eq_zero {a : Nat} (h : 80 ≤ a) : Memory.read State.reset.mem a = 0 := dif_neg (Nat.not_lt.mpr h)

/-- The initial condition with `pc` put `k` instructions before the end of memory. -/
def emptyBeforeEnd (k : Nat) : State := State.reset.setPc (BitVec.ofNat 16 (4096 - 2 * k))

theorem emptyBeforeEnd_pc (k : Nat) : (emptyBeforeEnd k).pc.toNat = 4096 - 2 * k := by
  rw [emptyBeforeEnd, State.setPc_pc, BitVec.toNat_ofNat]
  omega

/-- Above the font the empty machine fetches the zero word, which is `NOP` (R82). -/
theorem emptyBeforeEnd_runs_nop {k : Nat} (h : k < 1792) : (emptyBeforeEnd (k + 1)).Runs .nop := by
  have hpc := emptyBeforeEnd_pc (k + 1)
  have hhigh : Memory.read State.reset.mem (emptyBeforeEnd (k + 1)).pc.toNat = 0 := reset_read_eq_zero (by omega)
  have hlow : Memory.read State.reset.mem ((emptyBeforeEnd (k + 1)).pc.toNat + 1) = 0 := reset_read_eq_zero (by omega)
  have hword : (emptyBeforeEnd (k + 1)).nextWord = assemble 0 0 := congrArg₂ assemble hhigh hlow
  exact ⟨⟨rfl, by omega⟩, congrArg decodeWord hword⟩

theorem step_emptyBeforeEnd {k : Nat} (h : k < 1792) : step (emptyBeforeEnd (k + 1)) = .next (emptyBeforeEnd k) := by
  have hpc := emptyBeforeEnd_pc (k + 1)
  have hadvance : (emptyBeforeEnd (k + 1)).pc + 2 = BitVec.ofNat 16 (4096 - 2 * k) := by bv_omega
  calc step (emptyBeforeEnd (k + 1))
    _ = .next (emptyBeforeEnd (k + 1)).fetched := step_of_runs (emptyBeforeEnd_runs_nop h)
    _ = .next (State.reset.setPc ((emptyBeforeEnd (k + 1)).pc + 2)) := rfl
    _ = .next (emptyBeforeEnd k) := by rw [hadvance, emptyBeforeEnd]

/-- Where each state of a countdown steps to the next lower one, `n` steps from number `n` complete and end at 0. -/
theorem run_of_countdown {f : Nat → State} {n : Nat} (h : ∀ k < n, step (f (k + 1)) = .next (f k)) :
    State.SafeFor n (f n) ∧ performAll (List.replicate n .step) (f n) = f 0 := by
  induction n with
  | zero => exact ⟨trivial, rfl⟩
  | succ n ih =>
    obtain ⟨hsafe, hend⟩ := ih fun k hk => h k (Nat.lt_succ_of_lt hk)
    have hstep := h n n.lt_succ_self
    refine ⟨⟨f n, hstep, hsafe⟩, ?_⟩
    rw [List.replicate_succ, performAll, perform_step_of_next hstep, hend]

end Sys2Proof.Machine

namespace Sys2Proof

open Machine

/-- Settles O48: a ROM that fits is one block of bytes written from 0x200 on. -/
theorem loadCopiesTheRomOrRejectsIt : Obligations.LoadCopiesTheRomOrRejectsIt :=
  fun bytes s => ⟨fun hfits => ⟨_, perform_load_of_fits s hfits,
    fun _ hk => congrArg BitVec.toNat (Memory.read_writeBytes_add s.mem 0x200 hk),
    onlyChanges_writeBytes s 0x200 bytes⟩, perform_load_of_too_long s⟩

/-- Settles O19: the step writes the report bit alone. -/
theorem selfJumpChangesNothing : Obligations.SelfJumpChangesNothing :=
  fun s _ hruns hself => ⟨s.setFb false, step_of_selfJump hruns hself, rfl, onlyChanges_setFb s false⟩

/-- Settles O47: the state after reset is the initial condition with the count of random bytes carried over. -/
theorem resetOperationRestoresTheInitialCondition : Obligations.ResetOperationRestoresTheInitialCondition :=
  fun s => ⟨onlyChanges_setDraws State.reset s.draws, rfl, rfl, rfl, rfl⟩

/-- Settles O53: the initial condition stands 1792 instructions before the end of memory, and each step is a `NOP`. -/
theorem emptyMachineRunsToTheEndOfMemory : Obligations.EmptyMachineRunsToTheEndOfMemory := by
  obtain ⟨hsafe, hend⟩ := run_of_countdown (f := emptyBeforeEnd) (n := 1792) fun _ => step_emptyBeforeEnd
  have hreset : emptyBeforeEnd 1792 = State.reset := rfl
  rw [hreset] at hsafe hend
  have hpc : (emptyBeforeEnd 0).pc.toNat = 4096 := emptyBeforeEnd_pc 0
  have hfault : step (emptyBeforeEnd 0) = .fault (.addressOutOfRange 4096) := step_fetch_fault rfl (by omega)
  exact ⟨hsafe, emptyBeforeEnd 0, hend.symm, hpc, onlyChanges_setPc State.reset _, hfault⟩

end Sys2Proof
end
